-- ==== Sys2Proof/Word.lean ====
section
/-! DEFINITION. The word types: a single bit, a nibble and a byte. -/

namespace Sys2Proof

/-- One bit of a port or register. -/
abbrev Bit := BitVec 1

/-- Half a byte (`b[7:4]` or `b[3:0]`, R13). -/
abbrev Nibble := BitVec 4

/-- One byte of the payload buffer (R31, R34). -/
abbrev Byte := BitVec 8

end Sys2Proof
end

