-- ==== Sys2Proof/Syntax.lean ====
section
/-! DEFINITION. The operations of the block: one constructor for each row of spec/opcode_table.json,
two host commands and eighteen micro-operations (R57). -/

namespace Sys2Proof

/-- The operations of the block (R57). None carries an operand: each reads the `FRAME` port, the payload
buffer and the transaction-local values by name. -/
inductive Instr where
  /-- DECODE, R89. -/
  | decode
  /-- NOP, R92. -/
  | nop
  /-- SHAPE_CHECK, R60. -/
  | shapeCheck
  /-- PREAMBLE_SEARCH, R61. -/
  | preambleSearch
  /-- PRE_OFFSET, R62. -/
  | preOffset
  /-- REMAIN_CHECK, R63. -/
  | remainCheck
  /-- EXTRACT, R64. -/
  | extract
  /-- CSUM_ACC, R66. -/
  | csumAcc
  /-- CSUM_CHECK, R67. -/
  | csumCheck
  /-- VARSEL, R73. -/
  | varsel
  /-- GUST_DEC, R74. -/
  | gustDec
  /-- SPEED_DEC, R75. -/
  | speedDec
  /-- WDIR_DEC, R76. -/
  | wdirDec
  /-- RAIN_DEC, R77. -/
  | rainDec
  /-- TEMP_DEC, R78. -/
  | tempDec
  /-- TEMP_SIGN, R79. -/
  | tempSign
  /-- HUM_DEC, R80. -/
  | humDec
  /-- WIND_SCALE, R81. -/
  | windScale
  /-- MUX_OK, R83. -/
  | muxOk
  /-- MUX_FAIL, R86. -/
  | muxFail
  deriving DecidableEq, Repr

/-- The `format` column of the opcode table (R57). -/
inductive Format where
  /-- A host command, selected by `START` (R45). -/
  | cmd
  /-- Works on the input frame. -/
  | front
  /-- Selected by, and reads, the 160-bit payload buffer. -/
  | payload
  /-- A multiplexer operation. -/
  | out
  deriving DecidableEq, Repr

/-- The `format` of each row (R57). -/
def Instr.format : Instr → Format
  | .decode => .cmd
  | .nop => .cmd
  | .shapeCheck => .front
  | .preambleSearch => .front
  | .preOffset => .front
  | .remainCheck => .front
  | .extract => .front
  | .csumAcc => .payload
  | .csumCheck => .payload
  | .varsel => .payload
  | .gustDec => .payload
  | .speedDec => .payload
  | .wdirDec => .payload
  | .rainDec => .payload
  | .tempDec => .payload
  | .tempSign => .payload
  | .humDec => .payload
  | .windScale => .payload
  | .muxOk => .out
  | .muxFail => .out

end Sys2Proof
end

