-- ==== Sys2Proof/WellFormed.lean ====
section
/-! DEFINITION. Which operations the host can issue. No constructor has an operand, so the only check is
this one: a host command is DECODE or NOP; a micro-operation is internal to DECODE (R57). -/

namespace Sys2Proof

/-- The operation is a host command: it has a value of `START` of its own (R45). The FRONT, PAYLOAD and
OUT rows are run by DECODE and are never issued by the host (R57, log 11). -/
def Instr.wellFormed (i : Instr) : Bool :=
  match i.format with
  | .cmd => true
  | .front => false
  | .payload => false
  | .out => false

end Sys2Proof
end

