-- ==== Sys2Proof/Decode.lean ====
section
/-! DEFINITION. Decoding a host command from the `START` strobe, its encoder, and the PAYLOAD rows of the
opcode table: which micro-operations the 160 bits of a payload select (R45, R57). -/

namespace Sys2Proof

/-- Why bytes are no host command. -/
inductive DecodeError where
  /-- There is no byte. -/
  | noByte
  /-- The byte has a bit set other than bit 0, so it is not a value of the 1-bit strobe (log 12). -/
  | notAStrobe (b : Byte)
  deriving DecidableEq, Repr

/-- The command a sampled `START` issues (R45): 1 is DECODE, 0 is NOP; both values are defined. -/
def decodeStrobe (start : Bit) : Instr :=
  if start = 1#1 then .decode else .nop

/-- Reads one host command from bytes, and gives the bytes after it. A command is one byte that carries
`START` in bit 0 and zeros above it (log 12). -/
def decode : List Byte → Except DecodeError (Instr × List Byte)
  | [] => .error .noByte
  | b :: rest => if b.toNat < 2 then .ok (decodeStrobe (b.setWidth 1), rest) else .error (.notAStrobe b)

/-- The bytes of a host command (R45). A micro-operation has none: no value of `START` issues it. -/
def encode : Instr → List Byte
  | .decode => [0x01#8]
  | .nop => [0x00#8]
  | .shapeCheck => []
  | .preambleSearch => []
  | .preOffset => []
  | .remainCheck => []
  | .extract => []
  | .csumAcc => []
  | .csumCheck => []
  | .varsel => []
  | .gustDec => []
  | .speedDec => []
  | .wdirDec => []
  | .rainDec => []
  | .tempDec => []
  | .tempSign => []
  | .humDec => []
  | .windScale => []
  | .muxOk => []
  | .muxFail => []

/-- The bytes of a table word of `nbits` bits (rounded up to whole bytes), bit 0 in the first byte. -/
def tableBytes (nbits w : Nat) : List Byte :=
  (List.range ((nbits + 7) / 8)).map fun k => BitVec.ofNat 8 (w >>> (8 * k))

/-- The host command that the decoder reads from a table word, if the word is exactly one command. A
160-bit PAYLOAD pattern is no command: it selects several micro-operations at once (`selectedBy`). -/
def decodeTableWord (nbits w : Nat) : Option Instr :=
  match decode (tableBytes nbits w) with
  | .ok (i, []) => some i
  | .ok (_, _ :: _) => none
  | .error _ => none

/-- The `select` column of a PAYLOAD row (R57). -/
inductive Select where
  /-- The row applies in both variants. -/
  | always
  /-- The row applies when `(PB & mask) == match`. -/
  | equal
  /-- The row applies when `(PB & mask) != match`. -/
  | notEqual
  deriving DecidableEq, Repr

/-- One PAYLOAD row of the opcode table, over the 160 bits of `PB` in the order `PB[0]` bit 7 first (the
most significant) down to `PB[19]` bit 0 (R57). -/
structure PayloadRow where
  /-- The `match` column. -/
  matchBits : BitVec 160
  /-- The `mask` column. -/
  mask : BitVec 160
  /-- The `select` column. -/
  select : Select
  /-- The bits of the `encoding` pattern that are not `x`: the bits the operation reads or tests. -/
  reads : BitVec 160
  deriving DecidableEq, Repr

/-- The selector byte `PB[12]` in the 160 bits (R57). -/
def selectorMask : BitVec 160 := 0x000000000000000000000000FF00000000000000#160

/-- The PAYLOAD row of each micro-operation of that format; none for the other rows (R57). -/
def Instr.payloadRow : Instr → Option PayloadRow
  | .decode => none
  | .nop => none
  | .shapeCheck => none
  | .preambleSearch => none
  | .preOffset => none
  | .remainCheck => none
  | .extract => none
  | .csumAcc => some ⟨0, 0, .always, 0x0000FFFFFFFFFFFFFFFFFFFFFFFFFFFFFFFF0000#160⟩
  | .csumCheck => some ⟨0, 0, .always, 0⟩
  | .varsel => some ⟨selectorMask, selectorMask, .always, 0x000000000000000000000000FF00000000000000#160⟩
  | .gustDec => some ⟨0, 0, .always, 0x00000000000000FFF00000000000000000000000#160⟩
  | .speedDec => some ⟨0, 0, .always, 0x00000000000000000FFF00000000000000000000#160⟩
  | .wdirDec => some ⟨0, 0, .always, 0x00000000000000000000FFF00000000000000000#160⟩
  | .rainDec => some ⟨selectorMask, selectorMask, .equal, 0x000000000000000000000000FFFFFF0000000000#160⟩
  | .tempDec => some ⟨selectorMask, selectorMask, .notEqual, 0x000000000000000000000000FFF0000000000000#160⟩
  | .tempSign => some ⟨selectorMask, selectorMask, .notEqual, 0x000000000000000000000000FF00000000000000#160⟩
  | .humDec => some ⟨selectorMask, selectorMask, .notEqual, 0x000000000000000000000000FF00FF0000000000#160⟩
  | .windScale => some ⟨0, 0, .always, 0⟩
  | .muxOk => none
  | .muxFail => none

/-- A PAYLOAD row applies to a payload (R57). -/
def PayloadRow.applies (r : PayloadRow) (pb : BitVec 160) : Bool :=
  match r.select with
  | .always => true
  | .equal => pb &&& r.mask == r.matchBits
  | .notEqual => pb &&& r.mask != r.matchBits

/-- The payload `pb` selects the micro-operation `i`: `i` is a PAYLOAD row and the row applies (R57). -/
def selectedBy (pb : BitVec 160) (i : Instr) : Bool :=
  match i.payloadRow with
  | some r => r.applies pb
  | none => false

end Sys2Proof
end

