-- ==== Sys2Proof/Config.lean ====
section
/-! DEFINITION. What an implementation fixes and the spec leaves open: the model string, and the
value of a result that its register cannot hold. -/

namespace Sys2Proof.Config

/-- `MODEL_ID`, the text of the record's `model` key: an open parameter of the spec (R10, R27, D13),
so an opaque constant here (log 7). -/
opaque modelId : String

/-- FREE VALUE (log 8, DESIGN CHOICE): what a register of `w` bits holds after a rule writes it with the
integer `v`, where `v` does not fit the register. R12 says that this never happens and gives no value;
it happens only in states that no run reaches, when a micro-operation is run by itself. -/
opaque unfit : (w : Nat) → (v : Int) → BitVec w

end Sys2Proof.Config
end

