-- ==== Sys2Proof/Machine/State.lean ====
section
/-! DEFINITION. State as plain data, the reasons a step can stop, and the state after reset (file 10 of the
spec, R105). -/

namespace Sys2Proof.Machine

/-- Bytes by address, in one canonical form (`Memory.wf` in Machine/Ops.lean). -/
abbrev Memory := List Host.Cell

/-- The input frame port (R16): row count, bit count of row 0, and row 0, with `bits[i] = RowBit(i)`. -/
structure Frame where
  rows : BitVec 16
  len : BitVec 16
  bits : BitVec 230
  deriving DecidableEq, Repr

/-- The values of the input ports in one step (R16, R17). -/
structure Ports where
  rst : Bit
  start : Bit
  frame : Frame
  deriving DecidableEq, Repr

/-- The output registers (R18 to R26). The host reads them and cannot write them. -/
structure Outputs where
  /-- `STATUS`, R18. -/
  status : BitVec 3
  /-- `VARIANT`, R19. -/
  variant : Bit
  /-- `PRESENT`, R20. -/
  present : BitVec 9
  /-- `TEMP_DC`, two's complement, R21. -/
  tempDc : BitVec 12
  /-- `HUM_PCT`, R22. -/
  humPct : BitVec 8
  /-- `GUST_CKMH`, R23. -/
  gustCkmh : BitVec 17
  /-- `SPEED_CKMH`, R24. -/
  speedCkmh : BitVec 17
  /-- `WDIR_DEG`, R25. -/
  wdirDeg : BitVec 11
  /-- `RAIN_DMM`, R26. -/
  rainDmm : BitVec 16
  deriving DecidableEq, Repr

/-- The transaction-local datapath values (R28), and the two outputs of WIND_SCALE (R70). The payload
buffer is held as two memories: `pb` gives the values, and `pbSpec` gives, for each byte, which of its bits
are specified (R37, log 6). -/
structure Txn where
  k : BitVec 16
  soff : BitVec 16
  rem : BitVec 16
  nbits : BitVec 8
  plenBytes : BitVec 5
  pb : Memory
  pbSpec : Memory
  csum : BitVec 8
  sel : Bit
  gustRaw : BitVec 12
  speedRaw : BitVec 12
  wdirRaw : BitVec 11
  rainRaw : BitVec 16
  tempRaw : BitVec 11
  /-- Two's complement. -/
  tempCorr : BitVec 12
  humRaw : BitVec 8
  gustCkmh : BitVec 17
  speedCkmh : BitVec 17
  deriving DecidableEq, Repr

/-- The machine: its output registers, the values of its datapath, the port values of this step, and the
port values the host will drive in the steps after it, oldest first (log 1). -/
structure State where
  out : Outputs
  txn : Txn
  ports : Ports
  pending : List Ports
  deriving DecidableEq, Repr

/-- Why the machine stops with a fault. Each shows a wrong model if it is reached by DECODE (R104). -/
inductive Fault where
  /-- Raised by `RowBit(i)` where the port carries no bit `i`: `i >= LEN` (R32, R104), or `i >= 230` (R16,
  log 9). Safe: DECODE never reads such a bit. -/
  | rowBitAbsent
  /-- Raised by a read of a byte of `PB` that has an unspecified bit (R37, R104). Safe: DECODE never reads
  one. -/
  | pbBitUnspecified
  /-- Raised by an access to a `PB` address of 20 or more, which does not exist (R31, R34). Safe: no
  operation makes one. -/
  | pbAddressAbsent
  deriving DecidableEq, Repr

/-- Why a step has no meaning. -/
inductive Refusal where
  /-- Raised by an arm of `exec` whose instruction has no meaning yet; no arm raises it. Safe. -/
  | notModelled (mnemonic : String)
  /-- Raised by `step` in a state that holds `STATUS` 6 or 7 (R56, R104). Safe: no step produces one. -/
  | reservedStatus
  /-- Raised by `step` in a state that holds a `PRESENT` value outside `0x000`, `0x17D` and `0x1F1` (R54,
  R56, R104). Safe: no step produces one. -/
  | reservedPresent
  deriving DecidableEq, Repr

/-- The output registers after reset (R105). -/
def Outputs.reset : Outputs where
  status := 0
  variant := 0
  present := 0
  tempDc := 0
  humPct := 0
  gustCkmh := 0
  speedCkmh := 0
  wdirDeg := 0
  rainDmm := 0

/-- The transaction-local values after reset. R105 leaves them unspecified: the zeros are the model's, and
no bit of `PB` is specified (DESIGN CHOICE, log 4). -/
def Txn.reset : Txn where
  k := 0
  soff := 0
  rem := 0
  nbits := 0
  plenBytes := 0
  pb := []
  pbSpec := []
  csum := 0
  sel := 0
  gustRaw := 0
  speedRaw := 0
  wdirRaw := 0
  rainRaw := 0
  tempRaw := 0
  tempCorr := 0
  humRaw := 0
  gustCkmh := 0
  speedCkmh := 0

/-- The port values of a host that issues nothing and drives an all-zero frame (DESIGN CHOICE, log 2). -/
def Ports.quiet : Ports where
  rst := 0
  start := 0
  frame := ⟨0, 0, 0⟩

/-- The machine right after reset and at power-on (R105). -/
def State.reset : State where
  out := Outputs.reset
  txn := Txn.reset
  ports := Ports.quiet
  pending := []

end Sys2Proof.Machine
end

