-- ==== Sys2Proof/Machine/Flags.lean ====
section
/-! DEFINITION. The status codes and their classes, and the presence map (R52, R53, R54, R96). -/

namespace Sys2Proof.Machine

/-- The four failures of a DECODE (R96). -/
inductive FailCode where
  | frameLengthOutOfRange
  | preambleNotFound
  | payloadTooShort
  | checksumMismatch
  deriving DecidableEq, Repr

/-- The `STATUS` code NONE (R52). -/
def statusNone : BitVec 3 := 0#3

/-- The `STATUS` code OK (R52). -/
def statusOk : BitVec 3 := 1#3

/-- The `STATUS` code of each failure (R52, R96). -/
def FailCode.status : FailCode → BitVec 3
  | .frameLengthOutOfRange => 2#3
  | .preambleNotFound => 3#3
  | .payloadTooShort => 4#3
  | .checksumMismatch => 5#3

/-- `STATUS` holds one of the codes 0 to 5; 6 and 7 are reserved (R52, R56). -/
def statusDefined (c : BitVec 3) : Bool :=
  decide (c.toNat ≤ 5)

/-- The classes of status codes (R53). -/
inductive StatusClass where
  | none
  | success
  | notThisProtocol
  | corrupt
  deriving DecidableEq, Repr

/-- The class of a status code; the reserved codes 6 and 7 have none (R53). -/
def statusClass (c : BitVec 3) : Option StatusClass :=
  match c.toNat with
  | 0 => some .none
  | 1 => some .success
  | 2 => some .notThisProtocol
  | 3 => some .notThisProtocol
  | 4 => some .notThisProtocol
  | 5 => some .corrupt
  | _ => Option.none

/-- The keys of the record, in their order (R54, R55). -/
inductive Key where
  | model
  | id
  | temperatureC
  | humidity
  | windGust
  | windSpeed
  | windDirDeg
  | rainMm
  | mic
  deriving DecidableEq, Repr

/-- The keys in the record's order (R55). -/
def Key.all : List Key :=
  [.model, .id, .temperatureC, .humidity, .windGust, .windSpeed, .windDirDeg, .rainMm, .mic]

/-- The bit of `PRESENT` that belongs to each key (R54). -/
def Key.presentBit : Key → Nat
  | .model => 0
  | .id => 1
  | .temperatureC => 2
  | .humidity => 3
  | .windGust => 4
  | .windSpeed => 5
  | .windDirDeg => 6
  | .rainMm => 7
  | .mic => 8

/-- `PRESENT` after a successful FULL decode (R54, R83). -/
def presentFull : BitVec 9 := 0x17D#9

/-- `PRESENT` after a successful RAIN_ONLY decode (R54, R83). -/
def presentRainOnly : BitVec 9 := 0x1F1#9

/-- The bits of `PRESENT` that are wired to a register: all but bit 1, which is hardwired to 0 (R20, R84). -/
def presentWired : BitVec 9 := 0x1FD#9

/-- The value `PRESENT` holds after `v` is written to it: bit 1 stays 0 (R20, R84). -/
def writePresent (v : BitVec 9) : BitVec 9 :=
  v &&& presentWired

/-- `PRESENT` holds one of the three values that can occur (R54, R56). -/
def presentDefined (v : BitVec 9) : Bool :=
  v == 0x000#9 || v == presentFull || v == presentRainOnly

end Sys2Proof.Machine
end

