-- ==== Sys2Proof/Machine/Constants.lean ====
section
/-! DEFINITION. The constants of the spec's file 00, each named once (R3 to R11). -/

namespace Sys2Proof.Machine

/-- `MARKER` (R3). -/
def marker : List Byte := [0xAA#8, 0xAA#8, 0x2D#8, 0xD4#8]

/-- `MARKER_BITS` (R3). -/
def markerBits : Nat := 32

/-- `ROWS_REQ` (R4). -/
def rowsReq : Nat := 1

/-- `LEN_MIN` (R4). -/
def lenMin : Nat := 160

/-- `LEN_MAX` (R4). -/
def lenMax : Nat := 230

/-- `REMAIN_MIN` (R5). -/
def remainMin : Nat := 144

/-- `EXTRACT_MAX` (R5). -/
def extractMax : Nat := 160

/-- `PB_BYTES` (R5). -/
def pbBytes : Nat := 20

/-- `CSUM_FIRST` (R6). -/
def csumFirst : Nat := 2

/-- `CSUM_LAST` (R6). -/
def csumLast : Nat := 17

/-- `CSUM_EXPECT` (R6). -/
def csumExpect : Nat := 0x01

/-- `SENT_IDX` (R7). -/
def sentIdx : Nat := 12

/-- `SENTINEL` (R7). -/
def sentinel : Byte := 0xFF#8

/-- `TEMP_THRESH`, in tenths of a degree (R8). -/
def tempThresh : Nat := 600

/-- `TEMP_OFFSET`, in tenths of a degree (R8). -/
def tempOffset : Nat := 1000

/-- Hundredths of a km/h in one raw unit of wind, 0.1 m/s (R9, R81). -/
def windScaleFactor : Nat := 36

/-- `MIC_TAG` (R10). -/
def micTag : String := "CHECKSUM"

/-- `ROW_CAP`, the bits the port carries (R11, R16). -/
def rowCap : Nat := 230

/-- The value of `SEL` and `VARIANT` that means FULL (R19). -/
def variantFull : Bit := 0#1

/-- The value of `SEL` and `VARIANT` that means RAIN_ONLY (R19). -/
def variantRainOnly : Bit := 1#1

end Sys2Proof.Machine
end

