-- ==== Sys2Proof/Machine/Operands.lean ====
section
/-! DEFINITION. The operand forms: nibbles of a byte, the three digit encodings, and the bits of the
marker (R13, R33, R51, R71). -/

namespace Sys2Proof.Machine

/-- `hi(b) = b[7:4]` (R13). -/
def hi (b : Byte) : Nibble :=
  b.extractLsb' 4 4

/-- `lo(b) = b[3:0]` (R13). -/
def lo (b : Byte) : Nibble :=
  b.extractLsb' 0 4

/-- A straight BCD digit: the nibble itself, 10 to 15 included (R51, R72). -/
def digit (n : Nibble) : Nat :=
  n.toNat

/-- `inv4(n) = 0x0F - n` (R51, R71). -/
def inv4 (n : Nibble) : Nat :=
  0x0F - n.toNat

/-- `inv8(b) = 0xFF - b` (R51, R71). -/
def inv8 (b : Byte) : Nat :=
  0xFF - b.toNat

/-- `MarkerBit(t) = MARKER[t div 8][7 - (t mod 8)]` (R33); false from `t = 32` on, where it is not
defined and nothing reads it. -/
def markerBit (t : Nat) : Bool :=
  (marker.getD (t / 8) 0).getLsbD (7 - t % 8)

/-- `b` with bit `i` set to `x` (R14). -/
def setBit (b : Byte) (i : Nat) (x : Bool) : Byte :=
  if x then b ||| (1#8 <<< i) else b &&& ~~~(1#8 <<< i)

end Sys2Proof.Machine
end

