-- ==== Sys2Proof/Machine/Ops.lean ====
section
/-! DEFINITION. The named operations over memory, ports and registers: reading a row bit, reading and
writing the payload buffer, narrowing a result to its register, the result of a stage, taking a failure
(R98), reset (R105), and the check for reserved codes (R104). -/

namespace Sys2Proof.Machine

/-! ### Memory in canonical form -/

/-- What an unlisted address of a memory list holds (log 6). -/
def Memory.unlisted : Byte := 0#8

/-- The byte at address `a`. -/
def Memory.read : Memory → Nat → Byte
  | [], _ => Memory.unlisted
  | (a', v) :: m, a => if a = a' then v else Memory.read m a

/-- Puts `v` at address `a` and keeps the canonical form: writing the value an unlisted address holds
removes the entry. -/
def Memory.write : Memory → Nat → Byte → Memory
  | [], a, v => if v = Memory.unlisted then [] else [(a, v)]
  | (a', v') :: m, a, v =>
    if a < a' then (if v = Memory.unlisted then (a', v') :: m else (a, v) :: (a', v') :: m)
    else if a = a' then (if v = Memory.unlisted then m else (a, v) :: m)
    else (a', v') :: Memory.write m a v

/-- The canonical form: addresses strictly rising, and no entry equal to what an unlisted address holds. -/
abbrev Memory.wf (m : Memory) : Prop :=
  m.Pairwise (fun c d => c.1 < d.1) ∧ ∀ c ∈ m, c.2 ≠ Memory.unlisted

/-! ### The row and the payload buffer -/

/-- `RowBit(i)` (R14, R32): bit `i` of row 0, defined for `i < LEN`. The port carries 230 bits (R16). -/
def Frame.rowBit (f : Frame) (i : Nat) : Except Fault Bool :=
  if i < f.len.toNat ∧ i < rowCap then .ok (f.bits.getLsbD i) else .error .rowBitAbsent

/-- `MemRead(PB, i, 1)` (R14, R34). A byte with an unspecified bit cannot be read (R37, R104). -/
def Txn.memRead (t : Txn) (i : Nat) : Except Fault Byte :=
  if pbBytes ≤ i then .error .pbAddressAbsent
  else if Memory.read t.pbSpec i = 0xFF#8 then .ok (Memory.read t.pb i)
  else .error .pbBitUnspecified

/-- `MemWrite(PB, i, 1, v)` (R14, R34). It specifies every bit of the byte. -/
def Txn.memWrite (t : Txn) (i : Nat) (v : Byte) : Except Fault Txn :=
  if pbBytes ≤ i then .error .pbAddressAbsent
  else .ok { t with pb := Memory.write t.pb i v, pbSpec := Memory.write t.pbSpec i 0xFF#8 }

/-- `PB[i][b] <- x` (R64): writes and specifies one bit of a byte of `PB`. -/
def Txn.bitWrite (t : Txn) (i b : Nat) (x : Bool) : Except Fault Txn :=
  if pbBytes ≤ i then .error .pbAddressAbsent
  else .ok { t with
    pb := Memory.write t.pb i (setBit (Memory.read t.pb i) b x)
    pbSpec := Memory.write t.pbSpec i (setBit (Memory.read t.pbSpec i) b true) }

/-! ### Registers -/

/-- What a register of `w` bits holds after a rule writes the integer `v` to it. R12: a value written
always fits; where it would not, in a state that no run reaches, it is a free value (log 8). -/
def fit (w : Nat) (v : Int) : BitVec w :=
  if 0 ≤ v ∧ v < 2 ^ w then BitVec.ofInt w v else Config.unfit w v

/-- The state with other transaction-local values. -/
def State.setTxn (s : State) (t : Txn) : State :=
  { s with txn := t }

/-- The state with other output registers: the one operation that writes them. `PRESENT` bit 1 is
hardwired to 0 (R20, R84). -/
def State.setOut (s : State) (o : Outputs) : State :=
  { s with out := { o with present := writePresent o.present } }

/-- The state that MUX_FAIL leaves: every record register 0, `STATUS` as it was (R86). -/
def State.clearRecord (s : State) : State :=
  s.setOut { Outputs.reset with status := s.out.status }

/-! ### Stages of a transaction -/

/-- How a stage of a transaction ends: it passes, it raises a failure (R14), or the model stops. -/
inductive Stage where
  | pass (s : State)
  | fail (code : FailCode) (s : State)
  | fault (r : Fault)
  deriving DecidableEq, Repr

/-- Runs the next stage only if this one passed (R90, R98). -/
def Stage.andThen (st : Stage) (next : State → Stage) : Stage :=
  match st with
  | .pass s => next s
  | .fail c s => .fail c s
  | .fault r => .fault r

/-- A stage that reads byte `i` of `PB` and goes on with it. -/
def State.readPb (s : State) (i : Nat) (k : Byte → Stage) : Stage :=
  match s.txn.memRead i with
  | .ok b => k b
  | .error r => .fault r

/-- TAKING A FAILURE (R98): `STATUS` receives the code and the record is cleared, as one update. Nothing
is saved. -/
def State.takeFailure (s : State) (code : FailCode) : State :=
  s.clearRecord.setOut { s.clearRecord.out with status := code.status }

/-- What a micro-operation that is run by itself answers: its state, or the failure taken in the same
step (R98, log 11). -/
def Stage.settle (st : Stage) : Host.Outcome State Fault Refusal :=
  match st with
  | .pass s => .next s
  | .fail c s => .next (s.takeFailure c)
  | .fault r => .fault r

/-- The start of a transaction: no bit of `PB` is specified (R29, R37). The other transaction-local values
are carried and are written before they are read (log 5). -/
def State.beginTxn (s : State) : State :=
  s.setTxn { s.txn with pb := [], pbSpec := [] }

/-! ### Reset, the ports, reserved codes -/

/-- The effect of a step with `RST` asserted (R105): the block's registers are those after reset; the ports
are the host's and stay. -/
def State.takeReset (s : State) : State :=
  { s with out := State.reset.out, txn := State.reset.txn }

/-- The port values of the next step: the next that the host has pending, or, when it has none, the frame
as it stands with both strobes back at 0 (R58, R95, log 3). -/
def State.advancePorts (s : State) : State :=
  match s.pending with
  | [] => { s with ports := { s.ports with rst := 0, start := 0 } }
  | p :: ps => { s with ports := p, pending := ps }

/-- The end of a step: the ports move on to the next step's values. -/
def advance (o : Host.Outcome State Fault Refusal) : Host.Outcome State Fault Refusal :=
  match o with
  | .next s => .next s.advancePorts
  | .fault r => .fault r
  | .refused r => .refused r

/-- The reserved code a state holds, if any: a model refuses such a state (R56, R104, log 10). -/
def State.reserved (s : State) : Option Refusal :=
  if statusDefined s.out.status then
    (if presentDefined s.out.present then none else some .reservedPresent)
  else some .reservedStatus

end Sys2Proof.Machine
end

