-- ==== Sys2Proof/Machine/Checksum.lean ====
section
/-! DEFINITION. The checksum accumulator: CSUM_ACC and CSUM_CHECK (file 41 of the spec). -/

namespace Sys2Proof.Machine

/-- Adds `0x100 - PB[i]` mod 256, for the listed `i` in turn, to an accumulator (R66). -/
def Txn.accumulate (t : Txn) : List Nat → Nat → Except Fault Nat
  | [], acc => .ok acc
  | i :: is, acc =>
    match t.memRead i with
    | .error r => .error r
    | .ok b => t.accumulate is ((acc + (0x100 - b.toNat)) % 256)

/-- The indices `CSUM_FIRST .. CSUM_LAST`, in order (R6, R66). -/
def csumSpan : List Nat :=
  List.range' csumFirst (csumLast + 1 - csumFirst)

/-- The stage CSUM_ACC (R66). -/
def csumAcc (s : State) : Stage :=
  match s.txn.accumulate csumSpan 0 with
  | .ok c => .pass (s.setTxn { s.txn with csum := BitVec.ofNat 8 c })
  | .error r => .fault r

/-- CSUM_ACC (R66). -/
def execCsumAcc (s : State) : Host.Outcome State Fault Refusal :=
  (csumAcc s).settle

/-- The stage CSUM_CHECK (R67). -/
def csumCheck (s : State) : Stage :=
  if s.txn.csum.toNat ≠ csumExpect then .fail .checksumMismatch s else .pass s

/-- CSUM_CHECK (R67). -/
def execCsumCheck (s : State) : Host.Outcome State Fault Refusal :=
  (csumCheck s).settle

end Sys2Proof.Machine
end

