-- ==== Sys2Proof/Machine/FieldDecoder.lean ====
section
/-! DEFINITION. The field decoder: VARSEL, GUST_DEC, SPEED_DEC, WDIR_DEC, RAIN_DEC, TEMP_DEC, TEMP_SIGN,
HUM_DEC and WIND_SCALE (file 42 of the spec). Out-of-spec digits take the formula's value (R72). -/

namespace Sys2Proof.Machine

/-- The stage VARSEL (R73). -/
def varsel (s : State) : Stage :=
  s.readPb sentIdx fun b =>
    .pass (s.setTxn { s.txn with sel := if b = sentinel then variantRainOnly else variantFull })

/-- VARSEL (R73). -/
def execVarsel (s : State) : Host.Outcome State Fault Refusal :=
  (varsel s).settle

/-- The stage GUST_DEC (R74): at most 2565. -/
def gustDec (s : State) : Stage :=
  s.readPb 7 fun b7 => s.readPb 8 fun b8 =>
    .pass (s.setTxn { s.txn with gustRaw := BitVec.ofNat 12 (inv8 b7 * 10 + inv4 (hi b8)) })

/-- GUST_DEC (R74). -/
def execGustDec (s : State) : Host.Outcome State Fault Refusal :=
  (gustDec s).settle

/-- The stage SPEED_DEC (R75): at most 2565. -/
def speedDec (s : State) : Stage :=
  s.readPb 9 fun b9 => s.readPb 8 fun b8 =>
    .pass (s.setTxn { s.txn with speedRaw := BitVec.ofNat 12 (inv8 b9 * 10 + inv4 (lo b8)) })

/-- SPEED_DEC (R75). -/
def execSpeedDec (s : State) : Host.Outcome State Fault Refusal :=
  (speedDec s).settle

/-- The stage WDIR_DEC (R76): at most 1665, whole degrees, no scale (C1). -/
def wdirDec (s : State) : Stage :=
  s.readPb 10 fun b10 => s.readPb 11 fun b11 =>
    .pass (s.setTxn { s.txn with
      wdirRaw := BitVec.ofNat 11 (digit (hi b10) * 100 + digit (lo b10) * 10 + digit (hi b11)) })

/-- WDIR_DEC (R76). -/
def execWdirDec (s : State) : Host.Outcome State Fault Refusal :=
  (wdirDec s).settle

/-- The stage RAIN_DEC (R77): at most 16665; nothing is computed when `SEL = FULL`. -/
def rainDec (s : State) : Stage :=
  if s.txn.sel = variantRainOnly then
    s.readPb 13 fun b13 => s.readPb 14 fun b14 =>
      .pass (s.setTxn { s.txn with
        rainRaw := BitVec.ofNat 16
          (inv4 (hi b13) * 1000 + inv4 (lo b13) * 100 + inv4 (hi b14) * 10 + inv4 (lo b14)) })
  else .pass s

/-- RAIN_DEC (R77). -/
def execRainDec (s : State) : Host.Outcome State Fault Refusal :=
  (rainDec s).settle

/-- The stage TEMP_DEC (R78): nothing is computed when `SEL = RAIN_ONLY`. -/
def tempDec (s : State) : Stage :=
  if s.txn.sel = variantFull then
    s.readPb 12 fun b12 => s.readPb 13 fun b13 =>
      .pass (s.setTxn { s.txn with
        tempRaw := BitVec.ofNat 11 (digit (hi b12) * 100 + digit (lo b12) * 10 + digit (hi b13)) })
  else .pass s

/-- TEMP_DEC (R78). -/
def execTempDec (s : State) : Host.Outcome State Fault Refusal :=
  (tempDec s).settle

/-- The corrected temperature, in tenths of a degree (R8, R79). -/
def correctedTemp (raw : Nat) : Int :=
  if raw > tempThresh then (raw : Int) - tempOffset else raw

/-- The stage TEMP_SIGN (R79); nothing is computed when `SEL = RAIN_ONLY`. -/
def tempSign (s : State) : Stage :=
  if s.txn.sel = variantFull then
    .pass (s.setTxn { s.txn with tempCorr := BitVec.ofInt 12 (correctedTemp s.txn.tempRaw.toNat) })
  else .pass s

/-- TEMP_SIGN (R79). -/
def execTempSign (s : State) : Host.Outcome State Fault Refusal :=
  (tempSign s).settle

/-- The stage HUM_DEC (R80): at most 165; nothing is computed when `SEL = RAIN_ONLY`. -/
def humDec (s : State) : Stage :=
  if s.txn.sel = variantFull then
    s.readPb 14 fun b14 =>
      .pass (s.setTxn { s.txn with humRaw := BitVec.ofNat 8 (digit (lo b14) + digit (hi b14) * 10) })
  else .pass s

/-- HUM_DEC (R80). -/
def execHumDec (s : State) : Host.Outcome State Fault Refusal :=
  (humDec s).settle

/-- The stage WIND_SCALE (R81). The products fit 17 bits for every raw value the decoders write. -/
def windScale (s : State) : Stage :=
  .pass (s.setTxn { s.txn with
    gustCkmh := fit 17 (s.txn.gustRaw.toNat * windScaleFactor)
    speedCkmh := fit 17 (s.txn.speedRaw.toNat * windScaleFactor) })

/-- WIND_SCALE (R81). -/
def execWindScale (s : State) : Host.Outcome State Fault Refusal :=
  (windScale s).settle

end Sys2Proof.Machine
end

