-- ==== Sys2Proof/Machine/FrontEnd.lean ====
section
/-! DEFINITION. The front end: SHAPE_CHECK, PREAMBLE_SEARCH, PRE_OFFSET, REMAIN_CHECK and EXTRACT (file 40 of
the spec). -/

namespace Sys2Proof.Machine

/-! ### SHAPE_CHECK -/

/-- The stage SHAPE_CHECK (R60). It reads no row bit. -/
def shapeCheck (s : State) : Stage :=
  if s.ports.frame.rows.toNat ≠ rowsReq ∨ s.ports.frame.len.toNat < lenMin ∨ s.ports.frame.len.toNat > lenMax then
    .fail .frameLengthOutOfRange s
  else .pass s

/-- SHAPE_CHECK (R60). -/
def execShapeCheck (s : State) : Host.Outcome State Fault Refusal :=
  (shapeCheck s).settle

/-! ### PREAMBLE_SEARCH -/

/-- The marker bits numbered in the list match the row from offset `j` on (R61). -/
def Frame.matches (f : Frame) (j : Nat) : List Nat → Except Fault Bool
  | [] => .ok true
  | t :: ts =>
    match f.rowBit (j + t) with
    | .error r => .error r
    | .ok b => if b = markerBit t then f.matches j ts else .ok false

/-- The first of the `n` offsets from `j` on at which the whole marker matches; `LEN` if there is none
(R61). -/
def Frame.searchFrom (f : Frame) : (n j : Nat) → Except Fault Nat
  | 0, _ => .ok f.len.toNat
  | n + 1, j =>
    match f.matches j (List.range markerBits) with
    | .error r => .error r
    | .ok true => .ok j
    | .ok false => f.searchFrom n (j + 1)

/-- The marker position `K` of a frame: offsets `0 .. LEN - 32`, ascending (R61). -/
def Frame.search (f : Frame) : Except Fault Nat :=
  f.searchFrom (f.len.toNat + 1 - markerBits) 0

/-- The stage PREAMBLE_SEARCH (R61). -/
def preambleSearch (s : State) : Stage :=
  match s.ports.frame.search with
  | .ok k => .pass (s.setTxn { s.txn with k := BitVec.ofNat 16 k })
  | .error r => .fault r

/-- PREAMBLE_SEARCH (R61). -/
def execPreambleSearch (s : State) : Host.Outcome State Fault Refusal :=
  (preambleSearch s).settle

/-! ### PRE_OFFSET -/

/-- The stage PRE_OFFSET (R62): the comparison is over integers, the register receives the sum. -/
def preOffset (s : State) : Stage :=
  if s.txn.k.toNat + markerBits ≥ s.ports.frame.len.toNat then
    .fail .preambleNotFound (s.setTxn { s.txn with soff := fit 16 (s.txn.k.toNat + markerBits) })
  else .pass (s.setTxn { s.txn with soff := fit 16 (s.txn.k.toNat + markerBits) })

/-- PRE_OFFSET (R62). -/
def execPreOffset (s : State) : Host.Outcome State Fault Refusal :=
  (preOffset s).settle

/-! ### REMAIN_CHECK -/

/-- `LEN - SOFF` as an integer (R63). -/
def State.remaining (s : State) : Int :=
  (s.ports.frame.len.toNat : Int) - s.txn.soff.toNat

/-- The stage REMAIN_CHECK (R63). -/
def remainCheck (s : State) : Stage :=
  if s.remaining < remainMin then
    .fail .payloadTooShort (s.setTxn { s.txn with rem := fit 16 s.remaining })
  else .pass (s.setTxn { s.txn with rem := fit 16 s.remaining })

/-- REMAIN_CHECK (R63). -/
def execRemainCheck (s : State) : Host.Outcome State Fault Refusal :=
  (remainCheck s).settle

/-! ### EXTRACT -/

/-- The sum over the listed `m` of `RowBit(off + m) * 2^(7 - m)` (R35, R64). -/
def Frame.pack (f : Frame) (off : Nat) : List Nat → Except Fault Nat
  | [] => .ok 0
  | m :: ms =>
    match f.rowBit (off + m), f.pack off ms with
    | .ok b, .ok n => .ok (b.toNat * 2 ^ (7 - m) + n)
    | .error r, _ => .error r
    | .ok _, .error r => .error r

/-- Writes the listed whole bytes of `PB` from the row (R64). -/
def Frame.wholeBytes (f : Frame) (soff : Nat) : List Nat → Txn → Except Fault Txn
  | [], t => .ok t
  | i :: is, t =>
    match f.pack (soff + 8 * i) (List.range 8) with
    | .error r => .error r
    | .ok v =>
      match t.memWrite i (BitVec.ofNat 8 v) with
      | .error r => .error r
      | .ok t' => f.wholeBytes soff is t'

/-- Writes bits `7 - m` of byte `i` of `PB`, for the listed `m`, from the row (R64). -/
def Frame.partialByte (f : Frame) (soff i : Nat) : List Nat → Txn → Except Fault Txn
  | [], t => .ok t
  | m :: ms, t =>
    match f.rowBit (soff + 8 * i + m) with
    | .error r => .error r
    | .ok x =>
      match t.bitWrite i (7 - m) x with
      | .error r => .error r
      | .ok t' => f.partialByte soff i ms t'

/-- `NBITS = min(REM, EXTRACT_MAX)` (R64). -/
def State.extractBits (s : State) : Nat :=
  min s.txn.rem.toNat extractMax

/-- The writes of EXTRACT to `PB` (R35, R64): the whole bytes, then the bits of the partial one. -/
def State.extractPb (s : State) : Except Fault Txn :=
  match s.ports.frame.wholeBytes s.txn.soff.toNat (List.range (s.extractBits / 8)) s.txn with
  | .error r => .error r
  | .ok t =>
    s.ports.frame.partialByte s.txn.soff.toNat (s.extractBits / 8) (List.range (s.extractBits % 8)) t

/-- The stage EXTRACT (R64). -/
def extract (s : State) : Stage :=
  match s.extractPb with
  | .error r => .fault r
  | .ok t =>
    .pass (s.setTxn { t with
      nbits := BitVec.ofNat 8 s.extractBits
      plenBytes := BitVec.ofNat 5 (s.extractBits / 8) })

/-- EXTRACT (R64). -/
def execExtract (s : State) : Host.Outcome State Fault Refusal :=
  (extract s).settle

end Sys2Proof.Machine
end

