-- ==== Sys2Proof/Machine/OutputMux.lean ====
section
/-! DEFINITION. The output multiplexer: MUX_OK and MUX_FAIL (file 43 of the spec). `STATUS` is written by
the commit that DECODE makes around them (R83, R86, R89, R98). -/

namespace Sys2Proof.Machine

/-- The record of a FULL frame, over the `STATUS` that stands (R83). -/
def Txn.recordFull (t : Txn) (status : BitVec 3) : Outputs where
  status := status
  variant := variantFull
  present := presentFull
  tempDc := t.tempCorr
  humPct := t.humRaw
  gustCkmh := t.gustCkmh
  speedCkmh := t.speedCkmh
  wdirDeg := t.wdirRaw
  rainDmm := 0

/-- The record of a RAIN_ONLY frame, over the `STATUS` that stands (R83). -/
def Txn.recordRainOnly (t : Txn) (status : BitVec 3) : Outputs where
  status := status
  variant := variantRainOnly
  present := presentRainOnly
  tempDc := 0
  humPct := 0
  gustCkmh := t.gustCkmh
  speedCkmh := t.speedCkmh
  wdirDeg := t.wdirRaw
  rainDmm := t.rainRaw

/-- The state that MUX_OK leaves (R83). -/
def State.routeRecord (s : State) : State :=
  s.setOut (if s.txn.sel = variantFull then s.txn.recordFull s.out.status else s.txn.recordRainOnly s.out.status)

/-- MUX_OK (R83). -/
def execMuxOk (s : State) : Host.Outcome State Fault Refusal :=
  .next s.routeRecord

/-- MUX_FAIL (R86). -/
def execMuxFail (s : State) : Host.Outcome State Fault Refusal :=
  .next s.clearRecord

end Sys2Proof.Machine
end

