-- ==== Sys2Proof/Machine/Command.lean ====
section
/-! DEFINITION. The host commands DECODE and NOP (file 44 of the spec). -/

namespace Sys2Proof.Machine

/-- The front end in its order (R89, R90). -/
def frontEnd (s : State) : Stage :=
  (((((shapeCheck s).andThen preambleSearch).andThen preOffset).andThen remainCheck).andThen extract)

/-- The checksum (R89, R90). -/
def checksum (s : State) : Stage :=
  (csumAcc s).andThen csumCheck

/-- The fields of the variant that `SEL` chose (R89). -/
def variantFields (s : State) : Stage :=
  if s.txn.sel = variantRainOnly then rainDec s
  else ((tempDec s).andThen tempSign).andThen humDec

/-- The field decoder in its order (R89, R90). -/
def fieldDecoder (s : State) : Stage :=
  (((((varsel s).andThen gustDec).andThen speedDec).andThen wdirDec).andThen variantFields).andThen windScale

/-- The stages of a transaction before its commit (R89, R90). -/
def transaction (s : State) : Stage :=
  ((frontEnd s.beginTxn).andThen checksum).andThen fieldDecoder

/-- The commit of a successful DECODE: MUX_OK and `STATUS <- 1` as one update (R41, R89). -/
def State.commitOk (s : State) : State :=
  s.routeRecord.setOut { s.routeRecord.out with status := statusOk }

/-- The commit of a transaction (R41, R89, R98). -/
def Stage.commit (st : Stage) : Host.Outcome State Fault Refusal :=
  match st with
  | .pass s => .next s.commitOk
  | .fail c s => .next (s.takeFailure c)
  | .fault r => .fault r

/-- DECODE (R89). -/
def execDecode (s : State) : Host.Outcome State Fault Refusal :=
  (transaction s).commit

/-- NOP (R92). -/
def execNop (s : State) : Host.Outcome State Fault Refusal :=
  .next s

end Sys2Proof.Machine
end

