-- ==== Sys2Proof/Machine/Dispatch.lean ====
section
/-! DEFINITION. One arm per constructor of Instr, each one call of its meaning. -/

namespace Sys2Proof.Machine

def exec (i : Instr) (s : State) : Host.Outcome State Fault Refusal :=
  match i with
  | .decode => Sys2Proof.Machine.execDecode s
  | .nop => Sys2Proof.Machine.execNop s
  | .shapeCheck => Sys2Proof.Machine.execShapeCheck s
  | .preambleSearch => Sys2Proof.Machine.execPreambleSearch s
  | .preOffset => Sys2Proof.Machine.execPreOffset s
  | .remainCheck => Sys2Proof.Machine.execRemainCheck s
  | .extract => Sys2Proof.Machine.execExtract s
  | .csumAcc => Sys2Proof.Machine.execCsumAcc s
  | .csumCheck => Sys2Proof.Machine.execCsumCheck s
  | .varsel => Sys2Proof.Machine.execVarsel s
  | .gustDec => Sys2Proof.Machine.execGustDec s
  | .speedDec => Sys2Proof.Machine.execSpeedDec s
  | .wdirDec => Sys2Proof.Machine.execWdirDec s
  | .rainDec => Sys2Proof.Machine.execRainDec s
  | .tempDec => Sys2Proof.Machine.execTempDec s
  | .tempSign => Sys2Proof.Machine.execTempSign s
  | .humDec => Sys2Proof.Machine.execHumDec s
  | .windScale => Sys2Proof.Machine.execWindScale s
  | .muxOk => Sys2Proof.Machine.execMuxOk s
  | .muxFail => Sys2Proof.Machine.execMuxFail s

end Sys2Proof.Machine
end

