-- ==== Sys2Proof/Machine/Step.lean ====
section
/-! DEFINITION. One step of the block: reserved codes refused, reset, or the command that START issues; then the
ports move on to the next step's values. -/

namespace Sys2Proof.Machine

/-- One step (R17, R45, R105). A state with a reserved code is refused (R104). `RST` takes precedence over
`START`. -/
def step (s : State) : Host.Outcome State Fault Refusal :=
  match s.reserved with
  | some r => .refused r
  | none =>
    if s.ports.rst = 1#1 then advance (.next s.takeReset)
    else advance (exec (decodeStrobe s.ports.start) s)

/-- The state in which the next step samples the command word `w`: `START` is bit 0 of `w`, and `RST` is not
asserted. The block fetches nothing from a memory (R44, log 13). -/
def State.withFetchWord (s : State) (_nbits w : Nat) : State :=
  { s with ports := { s.ports with rst := 0, start := BitVec.ofNat 1 w } }

end Sys2Proof.Machine
end

