-- ==== Sys2Proof/Machine/Instances.lean ====
section
/-! DEFINITION. Several instances of the block: independent copies, one step relation each (R103). -/

namespace Sys2Proof.Machine

/-- One step of instance `i`: it steps by itself, and the other instances stay as they are (R103). -/
def stepInstance {n : Nat} (v : Vector State n) (i : Fin n) : Host.Outcome (Vector State n) Fault Refusal :=
  match step v[i] with
  | .next t => .next (v.set i t)
  | .fault r => .fault r
  | .refused r => .refused r

end Sys2Proof.Machine
end

