-- ==== Sys2Proof/Machine/Record.lean ====
section
/-! DEFINITION. The record view: the keyed record that the output registers stand for (R27, R55, R84, R85, R87).
It is a reading of the outputs, not a step. -/

namespace Sys2Proof.Machine

/-- The value of a record key (R87): a string, an exact rational, or an integer. -/
inductive Value where
  | text (s : String)
  | rational (q : Rat)
  | integer (n : Int)
  deriving DecidableEq, Repr

/-- The name of each key (R55). -/
def Key.name : Key → String
  | .model => "model"
  | .id => "id"
  | .temperatureC => "temperature_C"
  | .humidity => "humidity"
  | .windGust => "wind_gust"
  | .windSpeed => "wind_speed"
  | .windDirDeg => "wind_dir_deg"
  | .rainMm => "rain_mm"
  | .mic => "mic"

/-- The exact physical value of each key (R87). `id` has none: no payload byte is read for it (R84). -/
def Outputs.value (o : Outputs) : Key → Option Value
  | .model => some (.text Config.modelId)
  | .id => none
  | .temperatureC => some (.rational (o.tempDc.toInt / 10))
  | .humidity => some (.integer o.humPct.toNat)
  | .windGust => some (.rational (o.gustCkmh.toNat / 100))
  | .windSpeed => some (.rational (o.speedCkmh.toNat / 100))
  | .windDirDeg => some (.integer o.wdirDeg.toNat)
  | .rainMm => some (.rational (o.rainDmm.toNat / 10))
  | .mic => some (.text micTag)

/-- The key's presence bit is 1 (R20, R54). -/
def Outputs.has (o : Outputs) (k : Key) : Bool :=
  o.present.getLsbD k.presentBit

/-- One entry of the record: the key and its value, if it is present (R55). -/
def Outputs.entry (o : Outputs) (k : Key) : Option (Key × Value) :=
  if o.has k then (o.value k).map fun v => (k, v) else none

/-- The record, in the order of its keys (R55, R87). -/
def Outputs.record (o : Outputs) : List (Key × Value) :=
  Key.all.filterMap o.entry

end Sys2Proof.Machine
end

