-- ==== Sys2Proof/Machine/Script.lean ====
section
/-! DEFINITION. Host scripts: the frame notation, the script lines and pseudo-instructions, and the run of a
script (R46, R58, R59, R95). -/

namespace Sys2Proof.Machine

/-- The number whose bit `i` is `g i`, for `i < n`. -/
def packRow (g : Nat → Bool) : Nat → Nat
  | 0 => 0
  | n + 1 => packRow g n + (if g n then 2 ^ n else 0)

/-- A one-row frame of `len` bits with `RowBit(i) = g i` (R16). -/
def Frame.ofBits (rows len : Nat) (g : Nat → Bool) : Frame where
  rows := BitVec.ofNat 16 rows
  len := BitVec.ofNat 16 len
  bits := BitVec.ofNat 230 (packRow g 230)

/-- The hexadecimal notation of a frame (R46): `hex` is written with `ceil(len / 8)` bytes, its first digit
holding `RowBit(0)` to `RowBit(3)`. -/
def Frame.ofHex (rows len hex : Nat) : Frame :=
  Frame.ofBits rows len fun i => decide (i < len) && hex.testBit (8 * ((len + 7) / 8) - 1 - i)

/-- Bit `p` of a payload of 20 bytes, the first byte's bit 7 first (R33, R35). -/
def payloadBit (pb : BitVec 160) (p : Nat) : Bool :=
  pb.getLsbD (159 - p)

/-- The row bits of DECODE_PAYLOAD (R59): `k` zero bits, the 32 marker bits, the 160 payload bits. -/
def payloadRowBit (k : Nat) (pb : BitVec 160) (i : Nat) : Bool :=
  if i < k then false
  else if i < k + 32 then markerBit (i - k)
  else if i < k + 192 then payloadBit pb (i - (k + 32))
  else false

/-- The frame of DECODE_PAYLOAD (R59), for `k <= 38`. -/
def Frame.ofPayload (k : Nat) (pb : BitVec 160) : Frame :=
  Frame.ofBits 1 (k + 192) (payloadRowBit k pb)

/-- The output registers by name, as EXPECT reads them (R58). -/
inductive OutReg where
  | status
  | variant
  | present
  | tempDc
  | humPct
  | gustCkmh
  | speedCkmh
  | wdirDeg
  | rainDmm
  deriving DecidableEq, Repr

/-- The value the host reads from an output register; `TEMP_DC` is two's complement (R18 to R26). -/
def Outputs.read (o : Outputs) : OutReg → Int
  | .status => o.status.toNat
  | .variant => o.variant.toNat
  | .present => o.present.toNat
  | .tempDc => o.tempDc.toInt
  | .humPct => o.humPct.toNat
  | .gustCkmh => o.gustCkmh.toNat
  | .speedCkmh => o.speedCkmh.toNat
  | .wdirDeg => o.wdirDeg.toNat
  | .rainDmm => o.rainDmm.toNat

/-- The lines of a host script (R58). -/
inductive Line where
  | reset
  | frame (f : Frame)
  | decode
  | nop
  | expect (e : List (OutReg × Int))
  deriving DecidableEq, Repr

/-- DECODE_ROW (R59). -/
def decodeRow (len hex : Nat) : List Line :=
  [.frame (Frame.ofHex 1 len hex), .decode]

/-- DECODE_PAYLOAD (R59). -/
def decodePayload (k : Nat) (pb : BitVec 160) : List Line :=
  [.frame (Frame.ofPayload k pb), .decode]

/-- The port values of each step of a script, `f` being the frame in force (R58). -/
def scriptPorts (f : Frame) : List Line → List Ports
  | [] => []
  | .reset :: ls => ⟨1, 0, f⟩ :: scriptPorts f ls
  | .frame g :: ls => scriptPorts g ls
  | .decode :: ls => ⟨0, 1, f⟩ :: scriptPorts f ls
  | .nop :: ls => ⟨0, 0, f⟩ :: scriptPorts f ls
  | .expect _ :: ls => scriptPorts f ls

/-- The state in which the host is about to drive these port values, one a step (R95). -/
def State.drive (s : State) (ps : List Ports) : State :=
  match ps with
  | [] => { s with ports := { s.ports with rst := 0, start := 0 }, pending := [] }
  | p :: rest => { s with ports := p, pending := rest }

/-- Every assertion of an EXPECT line holds of the output registers (R58). -/
def Outputs.meets (o : Outputs) (e : List (OutReg × Int)) : Bool :=
  e.all fun c => o.read c.1 == c.2

/-- The step in which the host drives the port values `p`. -/
def State.stepWith (s : State) (p : Ports) : Host.Outcome State Fault Refusal :=
  step { s with ports := p, pending := [] }

/-- `n` steps of the block (R95). -/
def State.runSteps (s : State) : Nat → Host.Outcome State Fault Refusal
  | 0 => .next s
  | n + 1 =>
    match step s with
    | .next t => t.runSteps n
    | .fault r => .fault r
    | .refused r => .refused r

/-- How a run of a script ends. R95 ends it after its last step; the two early ends are the model's (DESIGN CHOICE,
log 15). -/
inductive RunEnd where
  /-- After its last line, in this state. -/
  | ended (s : State)
  /-- At an EXPECT line that does not hold of this state (DESIGN CHOICE, log 15). Safe. -/
  | notMet (s : State)
  /-- At a step that faulted or was refused (DESIGN CHOICE, log 15). Safe. -/
  | stopped
  deriving DecidableEq, Repr

/-- Runs a script from a state, `f` being the frame in force (R58, R95). The spec does not say what becomes of a run at
an EXPECT line that does not hold; here the run ends there (DESIGN CHOICE, log 15). An EXPECT line is no step. -/
def runScript (s : State) (f : Frame) : List Line → RunEnd
  | [] => .ended s
  | .frame g :: ls => runScript s g ls
  | .expect e :: ls => if s.out.meets e then runScript s f ls else .notMet s
  | .reset :: ls =>
    match s.stepWith ⟨1, 0, f⟩ with
    | .next t => runScript t f ls
    | .fault _ => .stopped
    | .refused _ => .stopped
  | .decode :: ls =>
    match s.stepWith ⟨0, 1, f⟩ with
    | .next t => runScript t f ls
    | .fault _ => .stopped
    | .refused _ => .stopped
  | .nop :: ls =>
    match s.stepWith ⟨0, 0, f⟩ with
    | .next t => runScript t f ls
    | .fault _ => .stopped
    | .refused _ => .stopped

end Sys2Proof.Machine
end

