-- ==== Sys2Proof/Safety.lean ====
section
/-! DEFINITION. What a good state of the block is: no reserved code, output registers that a record, a failure or
a reset can leave, and a payload buffer in canonical form. -/

namespace Sys2Proof.Machine

/-- Every record register is 0 (R86, R105). -/
abbrev Outputs.Cleared (o : Outputs) : Prop :=
  o.variant = 0 ∧ o.present = 0 ∧ o.tempDc = 0 ∧ o.humPct = 0 ∧ o.gustCkmh = 0 ∧ o.speedCkmh = 0 ∧
    o.wdirDeg = 0 ∧ o.rainDmm = 0

/-- The wind registers are in the ranges of R23, R24 and R25. -/
abbrev Outputs.WindInRange (o : Outputs) : Prop :=
  o.gustCkmh.toNat ≤ 92340 ∧ o.speedCkmh.toNat ≤ 92340 ∧ o.wdirDeg.toNat ≤ 1665

/-- The record of a FULL success: presence map, absent fields 0, ranges of R21 and R22. -/
abbrev Outputs.IsFull (o : Outputs) : Prop :=
  o.variant = 0 ∧ o.present = 0x17D#9 ∧ o.rainDmm = 0 ∧ -399 ≤ o.tempDc.toInt ∧ o.tempDc.toInt ≤ 655 ∧
    o.humPct.toNat ≤ 165 ∧ o.WindInRange

/-- The record of a RAIN_ONLY success: presence map, absent fields 0, range of R26. -/
abbrev Outputs.IsRainOnly (o : Outputs) : Prop :=
  o.variant = 1 ∧ o.present = 0x1F1#9 ∧ o.tempDc = 0 ∧ o.humPct = 0 ∧ o.rainDmm.toNat ≤ 16665 ∧ o.WindInRange

/-- The output registers are those of a success, of a failure, or of reset (R52, R54, R83, R86, R105). -/
abbrev Outputs.Good (o : Outputs) : Prop :=
  (o.status = 1 ∧ (o.IsFull ∨ o.IsRainOnly)) ∨ (o.status.toNat ≤ 5 ∧ o.status ≠ 1 ∧ o.Cleared)

/-- The payload buffer is in canonical form: both lists are, no address outside `0 .. 19` is listed (R31,
R34), and no unspecified bit holds a value (R37, log 6). -/
abbrev Txn.PbGood (t : Txn) : Prop :=
  Memory.wf t.pb ∧ Memory.wf t.pbSpec ∧ (∀ c ∈ t.pbSpec, c.1 < 20) ∧
    ∀ c ∈ t.pb, c.1 < 20 ∧ c.2 &&& ~~~(Memory.read t.pbSpec c.1) = 0#8

/-- The invariant of the machine. It says nothing about the ports, which the host drives. -/
abbrev State.Inv (s : State) : Prop :=
  s.out.Good ∧ s.txn.PbGood

/-! ### The terms in which statements speak of a frame -/

/-- The frame has an accepted shape (R4, R60). -/
abbrev Frame.ShapeOk (f : Frame) : Prop :=
  f.rows.toNat = 1 ∧ 160 ≤ f.len.toNat ∧ f.len.toNat ≤ 230

/-- The complete marker stands at offset `j` of the row: 32 bits within `LEN`, equal to
`10101010 10101010 00101101 11010100` from the first one on (R3, R61). -/
abbrev Frame.MarkerAt (f : Frame) (j : Nat) : Prop :=
  j + 32 ≤ f.len.toNat ∧ ∀ t < 32, f.bits.getLsbD (j + t) = (0xAAAA2DD4#32).getLsbD (31 - t)

/-- Offset `k` is the first at which the marker stands (R61). -/
abbrev Frame.FirstMarker (f : Frame) (k : Nat) : Prop :=
  f.MarkerAt k ∧ ∀ j < k, ¬ f.MarkerAt j

/-- The value of the eight row bits from `off` on, the first most significant (R35). -/
def Frame.byteAt (f : Frame) (off : Nat) : Nat :=
  ((List.range 8).map fun m => (f.bits.getLsbD (off + m)).toNat * 2 ^ (7 - m)).sum

/-- Payload byte `i` of a frame whose first marker stands at `k` (R35, R47). -/
def Frame.payloadByte (f : Frame) (k i : Nat) : Nat :=
  f.byteAt (k + 32 + 8 * i)

/-- The sum of payload bytes 2 to 17 (R68). -/
def Frame.spanSum (f : Frame) (k : Nat) : Nat :=
  ((List.range' 2 16).map (f.payloadByte k)).sum

/-- The frame passes the front end with its first marker at `k` (R65). -/
abbrev Frame.Extractable (f : Frame) (k : Nat) : Prop :=
  f.ShapeOk ∧ f.FirstMarker k ∧ 144 ≤ f.len.toNat - (k + 32)

/-- The high nibble of a byte value. -/
def hiNat (b : Nat) : Nat := b / 16

/-- The low nibble of a byte value. -/
def loNat (b : Nat) : Nat := b % 16

/-- The raw wind gust of a payload (R74). -/
def Frame.rawGust (f : Frame) (k : Nat) : Nat :=
  (255 - f.payloadByte k 7) * 10 + (15 - hiNat (f.payloadByte k 8))

/-- The raw wind speed of a payload (R75). -/
def Frame.rawSpeed (f : Frame) (k : Nat) : Nat :=
  (255 - f.payloadByte k 9) * 10 + (15 - loNat (f.payloadByte k 8))

/-- The wind direction of a payload (R76). -/
def Frame.rawDir (f : Frame) (k : Nat) : Nat :=
  hiNat (f.payloadByte k 10) * 100 + loNat (f.payloadByte k 10) * 10 + hiNat (f.payloadByte k 11)

/-- The rainfall of a payload (R77). -/
def Frame.rawRain (f : Frame) (k : Nat) : Nat :=
  (15 - hiNat (f.payloadByte k 13)) * 1000 + (15 - loNat (f.payloadByte k 13)) * 100 +
    (15 - hiNat (f.payloadByte k 14)) * 10 + (15 - loNat (f.payloadByte k 14))

/-- The uncorrected temperature of a payload (R78). -/
def Frame.rawTemp (f : Frame) (k : Nat) : Nat :=
  hiNat (f.payloadByte k 12) * 100 + loNat (f.payloadByte k 12) * 10 + hiNat (f.payloadByte k 13)

/-- The humidity of a payload (R80). -/
def Frame.rawHum (f : Frame) (k : Nat) : Nat :=
  loNat (f.payloadByte k 14) + hiNat (f.payloadByte k 14) * 10

/-- Runs operations one by one, each by itself, up to the first that gives no next state. -/
def runEach : List Instr → State → Host.Outcome State Fault Refusal
  | [], s => .next s
  | i :: is, s =>
    match exec i s with
    | .next t => runEach is t
    | .fault r => .fault r
    | .refused r => .refused r

/-- The micro-operations of a DECODE up to its commit's MUX_OK, in the order of R89, for a RAIN_ONLY frame or
for a FULL one. -/
def microOps (rainOnly : Bool) : List Instr :=
  [.shapeCheck, .preambleSearch, .preOffset, .remainCheck, .extract, .csumAcc, .csumCheck, .varsel, .gustDec,
    .speedDec, .wdirDec] ++
  (if rainOnly then [.rainDec] else [.tempDec, .tempSign, .humDec]) ++ [.windScale, .muxOk]

/-- Byte `i` of a payload given as 160 bits, `PB[0]` first (R57, R59). -/
def pbByte (pb : BitVec 160) (i : Nat) : Byte :=
  pb.extractLsb' (152 - 8 * i) 8

end Sys2Proof.Machine
end

