-- ==== Sys2Proof/Certificates/Slice0/Obligations.lean ====
section
/-! DEFINITION. The statements for the provers. A statement with hypotheses has its witness in Tests/Slice0.lean. -/

open Sys2Proof Sys2Proof.Machine

/-! ### Commands and steps -/

/-- R17, R45 (the byte layout is log 12, the moving ports log 3): a step without reset runs the command that
the sampled strobe decodes to, and then the ports move on: to the next pending values, or, if none is pending,
to the same frame with both strobes at 0. -/
def Obligations.StepRunsTheIssuedCommand : Prop :=
  ∀ (s : State) (i : Instr), s.reserved = none → s.ports.rst = 0#1 →
    decode [s.ports.start.setWidth 8] = .ok (i, []) →
    i.wellFormed = true ∧ step s = advance (exec i s) ∧
    ∀ t, exec i s = .next t →
      (t.pending = [] → step s = .next { t with ports := ⟨0#1, 0#1, t.ports.frame⟩ }) ∧
      (∀ p ps, t.pending = p :: ps → step s = .next { t with ports := p, pending := ps })

/-- R45: `START = 1` issues DECODE and `START = 0` issues NOP, sampled in the step; both values are defined. -/
def Obligations.StrobeIssuesDecodeOrNop : Prop :=
  ∀ s : State, s.reserved = none → s.ports.rst = 0#1 →
    (s.ports.start = 1#1 → step s = advance (exec .decode s)) ∧
    (s.ports.start = 0#1 → step s = advance (exec .nop s)) ∧
    (s.ports.start = 1#1 ∨ s.ports.start = 0#1)

/-- R45 (the byte layout is log 12): a host command is read back from its bytes; a byte that is read as a
command is that command's byte; a byte of 2 or more is rejected by name. -/
def Obligations.CommandBytesRoundTrip : Prop :=
  (∀ (i : Instr) (rest : List Byte), i.wellFormed = true → decode (encode i ++ rest) = .ok (i, rest)) ∧
  (∀ (b : Byte) (rest r : List Byte) (i : Instr), decode (b :: rest) = .ok (i, r) →
    i.wellFormed = true ∧ encode i = [b] ∧ r = rest) ∧
  (∀ (b : Byte) (rest : List Byte), 2 ≤ b.toNat → decode (b :: rest) = .error (.notAStrobe b))

/-- R45, R57 (the byte layout is log 12): words written out from the opcode table: `START = 1` and `START = 0`, a byte
that is no strobe, and the payloads P_RAIN and P_FULL of file 95, which select RAIN_DEC and TEMP_DEC. -/
def Obligations.TableWordsDecode : Prop :=
  decode [0b00000001#8] = .ok (.decode, []) ∧ decode [0b00000000#8] = .ok (.nop, []) ∧
  decode [0b00000011#8] = .error (.notAStrobe 0x03#8) ∧
  decodeTableWord 8 1 = some .decode ∧ decodeTableWord 8 0 = some .nop ∧
  selectedBy 0x11223344556677FDABFE2250FFFEDC0000650000#160 .rainDec = true ∧
  selectedBy 0x11223344556677FDABFE2250FFFEDC0000650000#160 .tempDec = false ∧
  selectedBy 0x11223344556677FDABFE22502340560000850000#160 .rainDec = false ∧
  selectedBy 0x11223344556677FDABFE22502340560000850000#160 .tempDec = true

/-- R57: over a payload whose bytes can be read, the rows that the table selects by `PB[12]` are those of the
variant that VARSEL chooses, and the other PAYLOAD rows are always selected. -/
def Obligations.SelectedRowsFollowTheVariant : Prop :=
  ∀ (s : State) (pb : BitVec 160), (∀ i < 20, s.txn.memRead i = .ok (pbByte pb i)) →
    ∃ t, exec .varsel s = .next t ∧
      (selectedBy pb .rainDec = true ↔ t.txn.sel = 1#1) ∧
      (∀ i ∈ [Instr.tempDec, .tempSign, .humDec], selectedBy pb i = true ↔ t.txn.sel = 0#1) ∧
      ∀ i ∈ [Instr.csumAcc, .csumCheck, .varsel, .gustDec, .speedDec, .wdirDec, .windScale], selectedBy pb i = true

/-- R105: a step with `RST` asserted leaves every output register 0, whatever `START` and `FRAME` are, so it performs
no DECODE; power-on has the same values. -/
def Obligations.ResetStepClearsTheOutputs : Prop :=
  State.reset.out = ⟨0, 0, 0, 0, 0, 0, 0, 0, 0⟩ ∧
  ∀ s : State, s.reserved = none → s.ports.rst = 1#1 →
    ∃ t, step s = .next t ∧ t.out = ⟨0, 0, 0, 0, 0, 0, 0, 0, 0⟩

/-- The model's choice for R58 and R95 (log 1, log 3): in every step, reset or not, the ports move on to the next
pending values, or, if none is pending, to the same frame with both strobes at 0. -/
def Obligations.PortsMoveOnInEveryStep : Prop :=
  ∀ s t : State, step s = .next t →
    (s.pending = [] → t.ports = ⟨0#1, 0#1, s.ports.frame⟩ ∧ t.pending = []) ∧
    ∀ p ps, s.pending = p :: ps → t.ports = p ∧ t.pending = ps

/-- R92: NOP changes nothing, and a step that issues it leaves the block's state as it is, whatever `FRAME`
holds. -/
def Obligations.NopLeavesTheBlockUnchanged : Prop :=
  (∀ s : State, exec .nop s = .next s) ∧
  ∀ (s : State) (f : Frame), s.reserved = none →
    ∃ t, step { s with ports := ⟨0#1, 0#1, f⟩ } = .next t ∧ t.out = s.out ∧ t.txn = s.txn

/-! ### Row bits and the payload buffer -/

/-- R32: `RowBit(i)` is the port's bit `i` for `i < LEN`, and a fault from `LEN` on, in a row of at most 230
bits. -/
def Obligations.RowBitIsDefinedBelowLen : Prop :=
  ∀ (f : Frame) (i : Nat), f.len.toNat ≤ 230 →
    (i < f.len.toNat → f.rowBit i = .ok (f.bits.getLsbD i)) ∧
    (f.len.toNat ≤ i → f.rowBit i = .error .rowBitAbsent)

/-- R34: a byte written to `PB` reads back, every other byte stays, and no address outside `0 .. 19` exists.
The two lists that hold the buffer are in canonical form (an invariant: StepKeepsTheInvariant). -/
def Obligations.PayloadBufferReadAfterWrite : Prop :=
  ∀ (t : Txn) (i : Nat) (v : Byte), Memory.wf t.pb → Memory.wf t.pbSpec →
    (i < 20 → ∃ u, t.memWrite i v = .ok u ∧ u.memRead i = .ok v ∧ (∀ j, j ≠ i → u.memRead j = t.memRead j) ∧
      u = { t with pb := u.pb, pbSpec := u.pbSpec }) ∧
    (20 ≤ i → t.memWrite i v = .error .pbAddressAbsent ∧ t.memRead i = .error .pbAddressAbsent)

/-! ### The front end -/

/-- R60: SHAPE_CHECK passes a frame of exactly one row of 160 to 230 bits, and fails any other with code 2. It
changes nothing when it passes; a failure changes the output registers only (R98; a micro-operation that is run by
itself takes its failure at once: log 11). -/
def Obligations.ShapeCheckAcceptsOneRowOf160To230 : Prop :=
  ∀ s : State,
    (s.ports.frame.rows.toNat = 1 ∧ 160 ≤ s.ports.frame.len.toNat ∧ s.ports.frame.len.toNat ≤ 230 →
      exec .shapeCheck s = .next s) ∧
    (s.ports.frame.rows.toNat ≠ 1 ∨ s.ports.frame.len.toNat < 160 ∨ 230 < s.ports.frame.len.toNat →
      exec .shapeCheck s = .next { s with out := ⟨2, 0, 0, 0, 0, 0, 0, 0, 0⟩ })

/-- R61: PREAMBLE_SEARCH writes `K`, the least offset at which all 32 marker bits stand in the row, or `LEN`
if there is none, and nothing else. -/
def Obligations.PreambleSearchFindsTheFirstMarker : Prop :=
  ∀ s : State, s.ports.frame.len.toNat ≤ 230 →
    ∃ t, exec .preambleSearch s = .next t ∧ t = { s with txn := { s.txn with k := t.txn.k } } ∧
      ((∃ j, s.ports.frame.MarkerAt j) →
        s.ports.frame.MarkerAt t.txn.k.toNat ∧ ∀ j < t.txn.k.toNat, ¬ s.ports.frame.MarkerAt j) ∧
      ((∀ j, ¬ s.ports.frame.MarkerAt j) → t.txn.k = s.ports.frame.len)

/-- R62: PRE_OFFSET writes `SOFF = K + 32`, fails with code 3 when `SOFF >= LEN`, and changes nothing else. (The
sum fits the register in every state a run reaches; else its value is free, log 8. Run by itself, it takes its
failure at once: log 11.) -/
def Obligations.PreOffsetRequiresBitsAfterTheMarker : Prop :=
  ∀ s : State, ∃ t, exec .preOffset s = .next t ∧
    (s.txn.k.toNat ≤ 65503 → t.txn.soff.toNat = s.txn.k.toNat + 32) ∧
    t = { s with txn := { s.txn with soff := t.txn.soff }, out := t.out } ∧
    (s.txn.k.toNat + 32 < s.ports.frame.len.toNat → t.out = s.out) ∧
    (s.ports.frame.len.toNat ≤ s.txn.k.toNat + 32 → t.out = ⟨3, 0, 0, 0, 0, 0, 0, 0, 0⟩)

/-- R63: REMAIN_CHECK writes `REM = LEN - SOFF`, fails with code 4 when `REM < 144`, and changes nothing else.
(`SOFF <= LEN` in every state a run reaches; else the register's value is free, log 8. Run by itself, it takes its
failure at once: log 11.) -/
def Obligations.RemainCheckRequires144Bits : Prop :=
  ∀ s : State, ∃ t, exec .remainCheck s = .next t ∧
    (s.txn.soff.toNat ≤ s.ports.frame.len.toNat →
      t.txn.rem.toNat = s.ports.frame.len.toNat - s.txn.soff.toNat) ∧
    t = { s with txn := { s.txn with rem := t.txn.rem }, out := t.out } ∧
    (s.txn.soff.toNat + 144 ≤ s.ports.frame.len.toNat → t.out = s.out) ∧
    (s.ports.frame.len.toNat < s.txn.soff.toNat + 144 → t.out = ⟨4, 0, 0, 0, 0, 0, 0, 0, 0⟩)

/-- R35, R64: EXTRACT writes `NBITS = min(REM, 160)`, `PLEN_BYTES = NBITS div 8`, each whole byte of `PB` from
eight row bits, most significant first, and the top bits of a partial byte. Every other bit of `PB` and its
being specified or not (log 6), and everything else, stays as it was. -/
def Obligations.ExtractPacksTheBitsAfterTheMarker : Prop :=
  ∀ s : State, s.ports.frame.len.toNat ≤ 230 → Memory.wf s.txn.pb → Memory.wf s.txn.pbSpec →
    s.txn.soff.toNat + min s.txn.rem.toNat 160 ≤ s.ports.frame.len.toNat →
    ∃ t, exec .extract s = .next t ∧
      t.txn.nbits.toNat = min s.txn.rem.toNat 160 ∧
      t.txn.plenBytes.toNat = min s.txn.rem.toNat 160 / 8 ∧
      (∀ i < min s.txn.rem.toNat 160 / 8, ∃ b, t.txn.memRead i = .ok b ∧
        ∀ m < 8, b.getLsbD (7 - m) = s.ports.frame.bits.getLsbD (s.txn.soff.toNat + (8 * i + m))) ∧
      (∀ i m, m < 8 → min s.txn.rem.toNat 160 / 8 = i → 8 * i + m < min s.txn.rem.toNat 160 →
        (Memory.read t.txn.pb i).getLsbD (7 - m) = s.ports.frame.bits.getLsbD (s.txn.soff.toNat + (8 * i + m)) ∧
        (Memory.read t.txn.pbSpec i).getLsbD (7 - m) = true) ∧
      (∀ i m, m < 8 → min s.txn.rem.toNat 160 ≤ 8 * i + m →
        (Memory.read t.txn.pb i).getLsbD (7 - m) = (Memory.read s.txn.pb i).getLsbD (7 - m) ∧
        (Memory.read t.txn.pbSpec i).getLsbD (7 - m) = (Memory.read s.txn.pbSpec i).getLsbD (7 - m)) ∧
      t = { s with txn := { s.txn with
        nbits := t.txn.nbits, plenBytes := t.txn.plenBytes, pb := t.txn.pb, pbSpec := t.txn.pbSpec } }

/-- R37, R104: after EXTRACT in a transaction that has just begun, a byte of `PB` can be read exactly when all
its bits were extracted; a read of any other byte is a fault. -/
def Obligations.UnextractedBytesCannotBeRead : Prop :=
  ∀ s : State, s.ports.frame.len.toNat ≤ 230 →
    s.txn.soff.toNat + min s.txn.rem.toNat 160 ≤ s.ports.frame.len.toNat →
    ∃ t, exec .extract s.beginTxn = .next t ∧ ∀ i < 20,
      (8 * i + 8 ≤ min s.txn.rem.toNat 160 → ∃ b, t.txn.memRead i = .ok b) ∧
      (min s.txn.rem.toNat 160 < 8 * i + 8 → t.txn.memRead i = .error .pbBitUnspecified)

/-! ### The checksum -/

/-- R66: CSUM_ACC writes the sum of `0x100 - PB[i]` over bytes 2 to 17, mod 256, and nothing else. -/
def Obligations.CsumAccSumsTheComplements : Prop :=
  ∀ (s : State) (b : Nat → Byte), (∀ i, 2 ≤ i → i ≤ 17 → s.txn.memRead i = .ok (b i)) →
    ∃ t, exec .csumAcc s = .next t ∧ t = { s with txn := { s.txn with csum := t.txn.csum } } ∧
      t.txn.csum.toNat = ((List.range' 2 16).map fun i => 256 - (b i).toNat).sum % 256

/-- R67: CSUM_CHECK passes `CSUM = 0x01` and changes nothing; any other value fails with code 5 and changes the
output registers only (R98; run by itself, it takes its failure at once: log 11). -/
def Obligations.CsumCheckPassesOnlyOne : Prop :=
  ∀ s : State,
    (s.txn.csum = 0x01#8 → exec .csumCheck s = .next s) ∧
    (s.txn.csum ≠ 0x01#8 → exec .csumCheck s = .next { s with out := ⟨5, 0, 0, 0, 0, 0, 0, 0, 0⟩ })

/-- R68: CSUM_ACC leaves the value that CSUM_CHECK passes exactly when bytes 2 to 17 sum to `0xFF` mod 256; any other
sum ends in failure 5 with a cleared record (R86, R98; CSUM_CHECK run by itself takes its failure at once: log 11). -/
def Obligations.ChecksumPassesWhenTheSpanSumsTo255 : Prop :=
  ∀ (s : State) (b : Nat → Byte), (∀ i, 2 ≤ i → i ≤ 17 → s.txn.memRead i = .ok (b i)) →
    ∃ t, exec .csumAcc s = .next t ∧
      (((List.range' 2 16).map fun i => (b i).toNat).sum % 256 = 0xFF → exec .csumCheck t = .next t) ∧
      (((List.range' 2 16).map fun i => (b i).toNat).sum % 256 ≠ 0xFF →
        ∃ u, exec .csumCheck t = .next u ∧ u.out = ⟨5, 0, 0, 0, 0, 0, 0, 0, 0⟩)

/-- R69: a single flipped bit within bytes 2 to 17 changes the checksum. -/
def Obligations.ChecksumDetectsASingleFlip : Prop :=
  ∀ (s s' : State) (b b' : Nat → Byte) (i j : Nat), 2 ≤ i → i ≤ 17 → j < 8 →
    (∀ n, 2 ≤ n → n ≤ 17 → s.txn.memRead n = .ok (b n)) →
    (∀ n, 2 ≤ n → n ≤ 17 → s'.txn.memRead n = .ok (b' n)) →
    b' i = b i ^^^ (1#8 <<< j) → (∀ n, n ≠ i → b' n = b n) →
    ∃ t t', exec .csumAcc s = .next t ∧ exec .csumAcc s' = .next t' ∧ t.txn.csum ≠ t'.txn.csum

/-- R69: a reordering of the bytes 2 to 17 leaves the checksum as it is. -/
def Obligations.ChecksumIgnoresTheOrderOfTheSpan : Prop :=
  ∀ (s s' : State) (b b' : Nat → Byte),
    (∀ n, 2 ≤ n → n ≤ 17 → s.txn.memRead n = .ok (b n)) →
    (∀ n, 2 ≤ n → n ≤ 17 → s'.txn.memRead n = .ok (b' n)) →
    ((List.range' 2 16).map b).Perm ((List.range' 2 16).map b') →
    ∃ t t', exec .csumAcc s = .next t ∧ exec .csumAcc s' = .next t' ∧ t.txn.csum = t'.txn.csum

/-! ### The field decoder -/

/-- R71: the inverted forms are the bitwise complements. -/
def Obligations.InvertedFormsAreComplements : Prop :=
  (∀ n : Nibble, inv4 n = 0x0F - n.toNat ∧ inv4 n = (~~~n).toNat) ∧
  ∀ b : Byte, inv8 b = 0xFF - b.toNat ∧ inv8 b = (~~~b).toNat

/-- R73: VARSEL chooses RAIN_ONLY for `PB[12] = 0xFF` and FULL for every other value, and writes `SEL` only. -/
def Obligations.VarselTestsTheSentinel : Prop :=
  ∀ (s : State) (b12 : Byte), s.txn.memRead 12 = .ok b12 →
    exec .varsel s = .next { s with txn := { s.txn with sel := if b12 = 0xFF#8 then 1#1 else 0#1 } }

/-- R74: GUST_DEC, from `PB[7]` and the high nibble of `PB[8]`, writes `GUST_RAW` only. -/
def Obligations.GustDecValue : Prop :=
  ∀ (s : State) (b7 b8 : Byte), s.txn.memRead 7 = .ok b7 → s.txn.memRead 8 = .ok b8 →
    ∃ t, exec .gustDec s = .next t ∧ t = { s with txn := { s.txn with gustRaw := t.txn.gustRaw } } ∧
      t.txn.gustRaw.toNat = (0xFF - b7.toNat) * 10 + (0x0F - b8.toNat / 16) ∧ t.txn.gustRaw.toNat ≤ 2565

/-- R75: SPEED_DEC, from `PB[9]` and the low nibble of `PB[8]`, writes `SPEED_RAW` only. -/
def Obligations.SpeedDecValue : Prop :=
  ∀ (s : State) (b8 b9 : Byte), s.txn.memRead 8 = .ok b8 → s.txn.memRead 9 = .ok b9 →
    ∃ t, exec .speedDec s = .next t ∧ t = { s with txn := { s.txn with speedRaw := t.txn.speedRaw } } ∧
      t.txn.speedRaw.toNat = (0xFF - b9.toNat) * 10 + (0x0F - b8.toNat % 16) ∧ t.txn.speedRaw.toNat ≤ 2565

/-- R76: WDIR_DEC, from three straight digits, writes `WDIR_RAW` only. -/
def Obligations.WdirDecValue : Prop :=
  ∀ (s : State) (b10 b11 : Byte), s.txn.memRead 10 = .ok b10 → s.txn.memRead 11 = .ok b11 →
    ∃ t, exec .wdirDec s = .next t ∧ t = { s with txn := { s.txn with wdirRaw := t.txn.wdirRaw } } ∧
      t.txn.wdirRaw.toNat = b10.toNat / 16 * 100 + b10.toNat % 16 * 10 + b11.toNat / 16 ∧
      t.txn.wdirRaw.toNat ≤ 1665

/-- R77: RAIN_DEC, in RAIN_ONLY, from four inverted digits, writes `RAIN_RAW` only; in FULL it computes
nothing. -/
def Obligations.RainDecValue : Prop :=
  (∀ (s : State) (b13 b14 : Byte), s.txn.sel = 1#1 → s.txn.memRead 13 = .ok b13 → s.txn.memRead 14 = .ok b14 →
    ∃ t, exec .rainDec s = .next t ∧ t = { s with txn := { s.txn with rainRaw := t.txn.rainRaw } } ∧
      t.txn.rainRaw.toNat = (0x0F - b13.toNat / 16) * 1000 + (0x0F - b13.toNat % 16) * 100 +
        (0x0F - b14.toNat / 16) * 10 + (0x0F - b14.toNat % 16) ∧ t.txn.rainRaw.toNat ≤ 16665) ∧
  ∀ s : State, s.txn.sel = 0#1 → exec .rainDec s = .next s

/-- R78: TEMP_DEC, in FULL, from three straight digits, writes `TEMP_RAW` only; in RAIN_ONLY it computes
nothing. Where `PB[12]` is not the sentinel, the value is at most 1655. -/
def Obligations.TempDecValue : Prop :=
  (∀ (s : State) (b12 b13 : Byte), s.txn.sel = 0#1 → s.txn.memRead 12 = .ok b12 → s.txn.memRead 13 = .ok b13 →
    ∃ t, exec .tempDec s = .next t ∧ t = { s with txn := { s.txn with tempRaw := t.txn.tempRaw } } ∧
      t.txn.tempRaw.toNat = b12.toNat / 16 * 100 + b12.toNat % 16 * 10 + b13.toNat / 16 ∧
      (b12 ≠ 0xFF#8 → t.txn.tempRaw.toNat ≤ 1655)) ∧
  ∀ s : State, s.txn.sel = 1#1 → exec .tempDec s = .next s

/-- R79: TEMP_SIGN, in FULL, subtracts 1000 from a raw value over 600, and writes `TEMP_CORR` only; in RAIN_ONLY
it computes nothing. -/
def Obligations.TempSignValue : Prop :=
  (∀ s : State, s.txn.sel = 0#1 →
    ∃ t, exec .tempSign s = .next t ∧ t = { s with txn := { s.txn with tempCorr := t.txn.tempCorr } } ∧
      t.txn.tempCorr.toInt =
        (if 600 < s.txn.tempRaw.toNat then (s.txn.tempRaw.toNat : Int) - 1000 else s.txn.tempRaw.toNat) ∧
      (s.txn.tempRaw.toNat ≤ 1655 → -399 ≤ t.txn.tempCorr.toInt ∧ t.txn.tempCorr.toInt ≤ 655)) ∧
  ∀ s : State, s.txn.sel = 1#1 → exec .tempSign s = .next s

/-- R80: HUM_DEC, in FULL, from two straight digits, writes `HUM_RAW` only; in RAIN_ONLY it computes nothing. -/
def Obligations.HumDecValue : Prop :=
  (∀ (s : State) (b14 : Byte), s.txn.sel = 0#1 → s.txn.memRead 14 = .ok b14 →
    ∃ t, exec .humDec s = .next t ∧ t = { s with txn := { s.txn with humRaw := t.txn.humRaw } } ∧
      t.txn.humRaw.toNat = b14.toNat % 16 + b14.toNat / 16 * 10 ∧ t.txn.humRaw.toNat ≤ 165) ∧
  ∀ s : State, s.txn.sel = 1#1 → exec .humDec s = .next s

/-- R81: WIND_SCALE multiplies both raw wind values by 36 and writes its two results only. (A product fits its
register for every raw value up to 3640, and the decoders write at most 2565; else its value is free, log 8.) -/
def Obligations.WindScaleMultipliesBy36 : Prop :=
  ∀ s : State, ∃ t, exec .windScale s = .next t ∧
    t = { s with txn := { s.txn with gustCkmh := t.txn.gustCkmh, speedCkmh := t.txn.speedCkmh } } ∧
    (s.txn.gustRaw.toNat ≤ 3640 → t.txn.gustCkmh.toNat = s.txn.gustRaw.toNat * 36) ∧
    (s.txn.speedRaw.toNat ≤ 3640 → t.txn.speedCkmh.toNat = s.txn.speedRaw.toNat * 36)

/-- R70: the field decoder, over readable bytes 7 to 14, passes, writes no `PB` byte, no port and no output
register, and two states with the same bytes 7 to 14 get the same values from it. -/
def Obligations.FieldDecoderReadsOnlyBytes7To14 : Prop :=
  ∀ (s s' : State) (b : Nat → Byte), (∀ i, 7 ≤ i → i ≤ 14 → s.txn.memRead i = .ok (b i)) →
    (∀ i, 7 ≤ i → i ≤ 14 → s'.txn.memRead i = .ok (b i)) →
    ∃ t t', fieldDecoder s = .pass t ∧ fieldDecoder s' = .pass t' ∧
      t.out = s.out ∧ t.ports = s.ports ∧ t.pending = s.pending ∧ t.txn.pb = s.txn.pb ∧ t.txn.pbSpec = s.txn.pbSpec ∧
      t.txn.sel = t'.txn.sel ∧ t.txn.gustCkmh = t'.txn.gustCkmh ∧ t.txn.speedCkmh = t'.txn.speedCkmh ∧
      t.txn.wdirRaw = t'.txn.wdirRaw ∧ (t.txn.sel = 1#1 → t.txn.rainRaw = t'.txn.rainRaw) ∧
      (t.txn.sel = 0#1 → t.txn.tempCorr = t'.txn.tempCorr ∧ t.txn.humRaw = t'.txn.humRaw)

/-! ### The output multiplexer -/

/-- R83: MUX_OK writes the record of the variant `SEL`, the absent fields as 0, and nothing but the record's
registers (`STATUS` is written by the commit around it). -/
def Obligations.MuxOkWritesTheRecord : Prop :=
  ∀ s : State,
    (s.txn.sel = 0#1 → exec .muxOk s = .next { s with out :=
      ⟨s.out.status, 0, 0x17D#9, s.txn.tempCorr, s.txn.humRaw, s.txn.gustCkmh, s.txn.speedCkmh, s.txn.wdirRaw, 0⟩ }) ∧
    (s.txn.sel = 1#1 → exec .muxOk s = .next { s with out :=
      ⟨s.out.status, 1, 0x1F1#9, 0, 0, s.txn.gustCkmh, s.txn.speedCkmh, s.txn.wdirRaw, s.txn.rainRaw⟩ })

/-- R86: MUX_FAIL clears every record register and writes nothing else. -/
def Obligations.MuxFailClearsTheRecord : Prop :=
  ∀ s : State, exec .muxFail s = .next { s with out := ⟨s.out.status, 0, 0, 0, 0, 0, 0, 0, 0⟩ }

/-! ### DECODE -/

/-- R91, R104: DECODE ends in its step for every frame and in every state, with `STATUS` in 1 to 5; it changes
neither the ports nor what the host will drive. -/
def Obligations.DecodeAlwaysEndsWithAResult : Prop :=
  ∀ s : State, ∃ t, exec .decode s = .next t ∧ 1 ≤ t.out.status.toNat ∧ t.out.status.toNat ≤ 5 ∧
    t.ports = s.ports ∧ t.pending = s.pending

/-- R65, R96, R97, C8: which status a DECODE leaves, by the first condition of the frame that fails. -/
def Obligations.DecodeReportsTheFirstFailure : Prop :=
  ∀ s : State, ∃ t, exec .decode s = .next t ∧
    (¬ s.ports.frame.ShapeOk → t.out.status = 2) ∧
    (s.ports.frame.ShapeOk → (∀ j, s.ports.frame.MarkerAt j → s.ports.frame.len.toNat ≤ j + 32) →
      t.out.status = 3) ∧
    (∀ k, s.ports.frame.ShapeOk → s.ports.frame.FirstMarker k → k + 32 < s.ports.frame.len.toNat →
      s.ports.frame.len.toNat < k + 32 + 144 → t.out.status = 4) ∧
    (∀ k, s.ports.frame.ShapeOk → s.ports.frame.FirstMarker k → k + 32 + 144 ≤ s.ports.frame.len.toNat →
      s.ports.frame.spanSum k % 256 ≠ 0xFF → t.out.status = 5) ∧
    (∀ k, s.ports.frame.ShapeOk → s.ports.frame.FirstMarker k → k + 32 + 144 ≤ s.ports.frame.len.toNat →
      s.ports.frame.spanSum k % 256 = 0xFF → t.out.status = 1)

/-- R86, R98, R106: a DECODE that fails leaves the output registers of reset but for `STATUS`. -/
def Obligations.FailedDecodeLeavesOnlyItsCode : Prop :=
  ∀ s t : State, exec .decode s = .next t → t.out.status ≠ 1 →
    t.out = { State.reset.out with status := t.out.status }

/-- R35, R61 to R83, R89: the record of a FULL frame, field by field, from the bits of the frame. -/
def Obligations.DecodeOfAFullFrame : Prop :=
  ∀ (s : State) (k : Nat), s.ports.frame.Extractable k → s.ports.frame.spanSum k % 256 = 0xFF →
    s.ports.frame.payloadByte k 12 ≠ 0xFF →
    ∃ t, exec .decode s = .next t ∧ t.out.status = 1 ∧ t.out.variant = 0 ∧ t.out.present = 0x17D#9 ∧
      t.out.tempDc.toInt = (if 600 < s.ports.frame.rawTemp k then (s.ports.frame.rawTemp k : Int) - 1000
        else s.ports.frame.rawTemp k) ∧
      t.out.humPct.toNat = s.ports.frame.rawHum k ∧
      t.out.gustCkmh.toNat = s.ports.frame.rawGust k * 36 ∧ t.out.speedCkmh.toNat = s.ports.frame.rawSpeed k * 36 ∧
      t.out.wdirDeg.toNat = s.ports.frame.rawDir k ∧ t.out.rainDmm = 0 ∧ t.ports = s.ports ∧ t.pending = s.pending

/-- R35, R61 to R83, R89: the record of a RAIN_ONLY frame, field by field, from the bits of the frame. -/
def Obligations.DecodeOfARainOnlyFrame : Prop :=
  ∀ (s : State) (k : Nat), s.ports.frame.Extractable k → s.ports.frame.spanSum k % 256 = 0xFF →
    s.ports.frame.payloadByte k 12 = 0xFF →
    ∃ t, exec .decode s = .next t ∧ t.out.status = 1 ∧ t.out.variant = 1 ∧ t.out.present = 0x1F1#9 ∧
      t.out.tempDc = 0 ∧ t.out.humPct = 0 ∧
      t.out.gustCkmh.toNat = s.ports.frame.rawGust k * 36 ∧ t.out.speedCkmh.toNat = s.ports.frame.rawSpeed k * 36 ∧
      t.out.wdirDeg.toNat = s.ports.frame.rawDir k ∧ t.out.rainDmm.toNat = s.ports.frame.rawRain k ∧
      t.ports = s.ports ∧ t.pending = s.pending

/-- R93: after a DECODE the output registers are a function of the sampled frame and of nothing else. -/
def Obligations.DecodeDependsOnTheFrameOnly : Prop :=
  ∀ s s' : State, s.ports.frame = s'.ports.frame →
    ∃ t t', exec .decode s = .next t ∧ exec .decode s' = .next t' ∧ t.out = t'.out

/-- R89, R90, R97: DECODE is the sequence of its micro-operations, each with the meaning it has by itself (the model's
reading of its rule, log 11), and one commit. A success ends like all of them in the order of R89, with `STATUS = 1`
beside MUX_OK. A failure ends like the micro-operations up to the one that fails: those before it have left the
outputs alone, and it takes the failure. -/
def Obligations.DecodeIsItsMicroOperationsInOrder : Prop :=
  ∀ s : State, ∃ t, exec .decode s = .next t ∧
    (t.out.status = 1 → ∃ u, runEach (microOps (t.out.variant == 1#1)) s.beginTxn = .next u ∧
      t = { u with out := { u.out with status := 1 } }) ∧
    (t.out.status ≠ 1 → ∃ (n : Nat) (i : Instr) (u : State), n < 7 ∧ (microOps true)[n]? = some i ∧
      runEach ((microOps true).take n) s.beginTxn = .next u ∧ u.out = s.out ∧ exec i u = .next t)

/-- R59, R61, R64: the frame of DECODE_PAYLOAD carries its payload: for every offset `k` up to 38 and every 20
bytes, the front end finds the marker at `k` and EXTRACT fills `PB` with those bytes. -/
def Obligations.PayloadFrameRoundTrip : Prop :=
  ∀ (s : State) (k : Nat) (pb : BitVec 160), k ≤ 38 → s.ports.frame = Frame.ofPayload k pb →
    ∃ t, frontEnd s.beginTxn = .pass t ∧ t.txn.k.toNat = k ∧ t.txn.soff.toNat = k + 32 ∧ t.txn.rem.toNat = 160 ∧
      ∀ i < 20, t.txn.memRead i = .ok (pbByte pb i)

/-- R50: two payloads that agree on the positions a field rule reads, and both pass the checksum, decode to the
same output registers, whatever their other bits are. -/
def Obligations.UnreadPayloadPositionsDoNotMatter : Prop :=
  ∀ (s s' : State) (k : Nat) (pb pb' : BitVec 160), k ≤ 38 →
    s.ports.frame = Frame.ofPayload k pb → s'.ports.frame = Frame.ofPayload k pb' →
    ((List.range' 2 16).map fun i => (pbByte pb i).toNat).sum % 256 = 0xFF →
    ((List.range' 2 16).map fun i => (pbByte pb' i).toNat).sum % 256 = 0xFF →
    (∀ i ∈ [7, 8, 9, 10, 12, 14], pbByte pb i = pbByte pb' i) →
    hi (pbByte pb 11) = hi (pbByte pb' 11) → hi (pbByte pb 13) = hi (pbByte pb' 13) →
    (pbByte pb 12 = 0xFF#8 → lo (pbByte pb 13) = lo (pbByte pb' 13)) →
    ∃ t t', exec .decode s = .next t ∧ exec .decode s' = .next t' ∧ t.out.status = 1 ∧ t.out = t'.out

/-! ### Whole-machine rules -/

/-- R18 to R26, R52, R54, R83, R86: every step keeps the invariant: `STATUS` is a defined code, the record
registers are those of a success of one variant, in their ranges, or all 0; `PB` is in canonical form. -/
def Obligations.StepKeepsTheInvariant : Prop :=
  ∀ s t : State, s.Inv → step s = .next t → t.Inv

/-- R105: the state after reset meets the invariant. R105 gives the output registers; it leaves PB unspecified (R29,
R37), and that the buffer is empty after reset is the model's choice (log 4), as is the form it is held in (log 6). -/
def Obligations.ResetMeetsTheInvariant : Prop :=
  State.reset.Inv

/-- R104: no admitted input makes the block fault, hang or get stuck: from a state that meets the invariant,
every step gives a next state, whatever the ports hold. -/
def Obligations.InvariantStatesAlwaysStep : Prop :=
  ∀ s : State, s.Inv → ∃ t, step s = .next t

/-- R56, R104 (the step refuses, log 10): a state that holds `STATUS` 6 or 7, or else a `PRESENT` other than the three values, is
refused by a step. -/
def Obligations.ReservedCodesAreRefused : Prop :=
  ∀ s : State,
    (s.out.status = 6 ∨ s.out.status = 7 → step s = .refused .reservedStatus) ∧
    (s.out.status.toNat ≤ 5 → s.out.present ≠ 0x000#9 → s.out.present ≠ 0x17D#9 → s.out.present ≠ 0x1F1#9 →
      step s = .refused .reservedPresent)

/-- R53: the class of each status code. -/
def Obligations.StatusClasses : Prop :=
  (∀ c : BitVec 3, statusClass c = some .notThisProtocol ↔ c = 2 ∨ c = 3 ∨ c = 4) ∧
  (∀ c : BitVec 3, statusClass c = some .corrupt ↔ c = 5) ∧
  (∀ c : BitVec 3, statusClass c = some .success ↔ c = 1) ∧
  ∀ c : BitVec 3, statusClass c = some .none ↔ c = 0

/-- R55, R84, R85, R87: the record after a DECODE: nothing after a failure; after a success the keys of the
variant in their order, `model` and `mic` among them and `id` never, each with its exact value. -/
def Obligations.RecordAfterDecode : Prop :=
  ∀ s t : State, exec .decode s = .next t →
    (t.out.status ≠ 1 → t.out.record = []) ∧
    (t.out.status = 1 → t.out.variant = 0 → t.out.record =
      [(.model, .text Config.modelId), (.temperatureC, .rational (t.out.tempDc.toInt / 10)),
        (.humidity, .integer t.out.humPct.toNat), (.windGust, .rational (t.out.gustCkmh.toNat / 100)),
        (.windSpeed, .rational (t.out.speedCkmh.toNat / 100)), (.windDirDeg, .integer t.out.wdirDeg.toNat),
        (.mic, .text "CHECKSUM")]) ∧
    (t.out.status = 1 → t.out.variant = 1 → t.out.record =
      [(.model, .text Config.modelId), (.windGust, .rational (t.out.gustCkmh.toNat / 100)),
        (.windSpeed, .rational (t.out.speedCkmh.toNat / 100)), (.windDirDeg, .integer t.out.wdirDeg.toNat),
        (.rainMm, .rational (t.out.rainDmm.toNat / 10)), (.mic, .text "CHECKSUM")])

/-- R58, R95: a script that runs to its end does so in one step of the block for each of its RESET, DECODE and NOP
lines, the host driving its port values in turn (logs 1 and 3), and with the same output registers; FRAME and EXPECT
lines are no step. (A run that does not reach its end, at an EXPECT that does not hold, is the model's choice:
log 15.) -/
def Obligations.ScriptRunsOneStepALine : Prop :=
  ∀ (s t : State) (f : Frame) (ls : List Line), runScript s f ls = .ended t →
    ∃ u, (s.drive (scriptPorts f ls)).runSteps (scriptPorts f ls).length = .next u ∧ u.out = t.out

/-- R103: two instances step without touching each other, in either order with the same result. -/
def Obligations.InstancesAreIndependent : Prop :=
  ∀ (n : Nat) (v w x : Vector State n) (i j : Fin n), i ≠ j →
    stepInstance v i = .next w → stepInstance w j = .next x →
    w[j] = v[j] ∧ ∃ w', stepInstance v j = .next w' ∧ w'[i] = v[i] ∧ stepInstance w' i = .next x
end

