-- ==== Sys2Proof/Laws/Memory.lean ====
section
/-! SUPPORT. The laws of the canonical memory lists: a read after a write, and the form kept. -/

namespace Sys2Proof.Machine

@[simp] theorem Memory.read_nil (a : Nat) : Memory.read [] a = 0#8 := rfl

/-- Reading the address just written gives the value written. -/
@[simp] theorem Memory.read_write_same (m : Memory) (hm : Memory.wf m) (a : Nat) (v : Byte) :
    Memory.read (Memory.write m a v) a = v := by
  induction m with
  | nil => simp only [Memory.write]; split <;> simp_all [Memory.read, Memory.unlisted]
  | cons c m ih =>
    obtain ⟨a', v'⟩ := c
    obtain ⟨hp, hz⟩ := hm
    rw [List.pairwise_cons] at hp
    have hwf : Memory.wf m := ⟨hp.2, fun c hc => hz c (List.mem_cons_of_mem _ hc)⟩
    have habsent : ∀ b ≤ a', Memory.read m b = Memory.unlisted := by
      intro b hb
      have hall := hp.1
      clear ih hwf hp hz
      induction m with
      | nil => rfl
      | cons d m ih2 =>
        have h1 := hall d List.mem_cons_self
        simp only [Memory.read]
        rw [if_neg (by simp at h1; omega)]
        exact ih2 fun e he => hall e (List.mem_cons_of_mem _ he)
    simp only [Memory.write]
    split
    · split
      · rename_i h1 h2
        simp only [Memory.read]
        rw [if_neg (by omega), habsent a (by omega), h2]
      · simp [Memory.read]
    · split
      · split
        · rename_i h1 h2 h3
          rw [habsent a (by omega), h3]
        · simp [Memory.read]
      · rename_i h1 h2
        simp only [Memory.read]
        rw [if_neg h2]
        exact ih hwf

/-- A write leaves every other address as it was. -/
theorem Memory.read_write_other (m : Memory) {a b : Nat} (v : Byte) (h : b ≠ a) :
    Memory.read (Memory.write m a v) b = Memory.read m b := by
  induction m with
  | nil => simp only [Memory.write]; split <;> simp_all [Memory.read, Memory.unlisted]
  | cons c m ih =>
    obtain ⟨a', v'⟩ := c
    simp only [Memory.write]
    split
    · split
      · rfl
      · simp [Memory.read, h]
    · split
      · split
        · rename_i h1 h2 h3
          subst h2
          simp [Memory.read, h]
        · rename_i h1 h2 h3
          subst h2
          simp [Memory.read, h]
      · simp only [Memory.read, ih]

/-- Each entry after a write is the one written, with a listed value, or was there before. -/
theorem Memory.mem_write {m : Memory} {a : Nat} {v : Byte} {c : Host.Cell} (h : c ∈ Memory.write m a v) :
    (c = (a, v) ∧ v ≠ Memory.unlisted) ∨ c ∈ m := by
  induction m with
  | nil =>
    simp only [Memory.write] at h
    split at h
    · simp at h
    · simp_all
  | cons d m ih =>
    obtain ⟨a', v'⟩ := d
    simp only [Memory.write] at h
    split at h
    · split at h
      · exact .inr h
      · rcases List.mem_cons.1 h with h | h
        · exact .inl ⟨h, ‹_›⟩
        · exact .inr h
    · split at h
      · split at h
        · exact .inr (List.mem_cons_of_mem _ h)
        · rcases List.mem_cons.1 h with h | h
          · exact .inl ⟨h, ‹_›⟩
          · exact .inr (List.mem_cons_of_mem _ h)
      · rcases List.mem_cons.1 h with h | h
        · exact .inr (h ▸ List.mem_cons_self)
        · exact (ih h).imp id (List.mem_cons_of_mem _)

/-- A write keeps the canonical form. -/
theorem Memory.write_wf {m : Memory} (h : Memory.wf m) (a : Nat) (v : Byte) :
    Memory.wf (Memory.write m a v) := by
  refine ⟨?_, fun c hc => ?_⟩
  · obtain ⟨hp, -⟩ := h
    induction m with
    | nil => simp only [Memory.write]; split <;> simp
    | cons d m ih =>
      obtain ⟨a', v'⟩ := d
      have hp' := hp
      rw [List.pairwise_cons] at hp
      simp only [Memory.write]
      split
      · split
        · exact hp'
        · refine List.pairwise_cons.2 ⟨fun c hc => ?_, hp'⟩
          rcases List.mem_cons.1 hc with h | h
          · subst h; assumption
          · have := hp.1 c h; simp at this ⊢; omega
      · split
        · rename_i h1 h2
          subst h2
          split
          · exact hp.2
          · exact List.pairwise_cons.2 ⟨hp.1, hp.2⟩
        · refine List.pairwise_cons.2 ⟨fun c hc => ?_, ih hp.2⟩
          rcases Memory.mem_write hc with h | h
          · have := h.1; subst this; simp; omega
          · exact hp.1 c h
  · rcases Memory.mem_write hc with h1 | h1
    · rw [h1.1]; exact h1.2
    · exact h.2 c h1

/-- An entry of a canonical memory is what its address reads as. -/
theorem Memory.read_of_mem {m : Memory} (h : Memory.wf m) {c : Host.Cell} (hc : c ∈ m) :
    Memory.read m c.1 = c.2 := by
  induction m with
  | nil => cases hc
  | cons d m ih =>
    obtain ⟨a', v'⟩ := d
    obtain ⟨hp, hz⟩ := h
    rw [List.pairwise_cons] at hp
    rcases List.mem_cons.1 hc with h1 | h1
    · subst h1; simp [Memory.read]
    · have := hp.1 c h1
      simp only [Memory.read]
      rw [if_neg (by simp at this; omega)]
      exact ih ⟨hp.2, fun c hc => hz c (List.mem_cons_of_mem _ hc)⟩ h1

end Sys2Proof.Machine
end

