-- ==== Sys2Proof/Laws/State.lean ====
section
/-! SUPPORT. One lemma per field per update of the state. -/

namespace Sys2Proof.Machine

@[simp] theorem setTxn_txn (s : State) (t : Txn) : (s.setTxn t).txn = t := rfl
@[simp] theorem setTxn_out (s : State) (t : Txn) : (s.setTxn t).out = s.out := rfl
@[simp] theorem setTxn_ports (s : State) (t : Txn) : (s.setTxn t).ports = s.ports := rfl
@[simp] theorem setTxn_pending (s : State) (t : Txn) : (s.setTxn t).pending = s.pending := rfl
@[simp] theorem setTxn_setTxn (s : State) (t u : Txn) : (s.setTxn t).setTxn u = s.setTxn u := rfl
@[simp] theorem setTxn_self (s : State) : s.setTxn s.txn = s := rfl

@[simp] theorem setOut_txn (s : State) (o : Outputs) : (s.setOut o).txn = s.txn := rfl
@[simp] theorem setOut_ports (s : State) (o : Outputs) : (s.setOut o).ports = s.ports := rfl
@[simp] theorem setOut_pending (s : State) (o : Outputs) : (s.setOut o).pending = s.pending := rfl
@[simp] theorem setOut_setOut (s : State) (o p : Outputs) : (s.setOut o).setOut p = s.setOut p := rfl
@[simp] theorem setOut_status (s : State) (o : Outputs) : (s.setOut o).out.status = o.status := rfl
@[simp] theorem setOut_variant (s : State) (o : Outputs) : (s.setOut o).out.variant = o.variant := rfl
@[simp] theorem setOut_present (s : State) (o : Outputs) :
    (s.setOut o).out.present = writePresent o.present := rfl
@[simp] theorem setOut_tempDc (s : State) (o : Outputs) : (s.setOut o).out.tempDc = o.tempDc := rfl
@[simp] theorem setOut_humPct (s : State) (o : Outputs) : (s.setOut o).out.humPct = o.humPct := rfl
@[simp] theorem setOut_gustCkmh (s : State) (o : Outputs) : (s.setOut o).out.gustCkmh = o.gustCkmh := rfl
@[simp] theorem setOut_speedCkmh (s : State) (o : Outputs) : (s.setOut o).out.speedCkmh = o.speedCkmh := rfl
@[simp] theorem setOut_wdirDeg (s : State) (o : Outputs) : (s.setOut o).out.wdirDeg = o.wdirDeg := rfl
@[simp] theorem setOut_rainDmm (s : State) (o : Outputs) : (s.setOut o).out.rainDmm = o.rainDmm := rfl

/-- MUX_FAIL leaves every record register 0 and `STATUS` as it was (R86). -/
@[simp] theorem clearRecord_out (s : State) :
    s.clearRecord.out = { Outputs.reset with status := s.out.status } := by
  simp [State.clearRecord, State.setOut, writePresent, Outputs.reset]
@[simp] theorem clearRecord_txn (s : State) : s.clearRecord.txn = s.txn := rfl
@[simp] theorem clearRecord_ports (s : State) : s.clearRecord.ports = s.ports := rfl
@[simp] theorem clearRecord_pending (s : State) : s.clearRecord.pending = s.pending := rfl

/-- Taking a failure leaves the code and a cleared record (R98). -/
@[simp] theorem takeFailure_out (s : State) (c : FailCode) :
    (s.takeFailure c).out = { Outputs.reset with status := c.status } := by
  simp [State.takeFailure, State.setOut, writePresent, Outputs.reset]

/-- Taking a failure writes the output registers and nothing else (R98). -/
theorem takeFailure_eq (s : State) (c : FailCode) :
    s.takeFailure c = { s with out := ⟨c.status, 0, 0, 0, 0, 0, 0, 0, 0⟩ } := by
  simp [State.takeFailure, State.clearRecord, State.setOut, Outputs.reset, writePresent]

@[simp] theorem takeFailure_txn (s : State) (c : FailCode) : (s.takeFailure c).txn = s.txn := rfl
@[simp] theorem takeFailure_ports (s : State) (c : FailCode) : (s.takeFailure c).ports = s.ports := rfl
@[simp] theorem takeFailure_pending (s : State) (c : FailCode) : (s.takeFailure c).pending = s.pending := rfl

@[simp] theorem beginTxn_out (s : State) : s.beginTxn.out = s.out := rfl
@[simp] theorem beginTxn_ports (s : State) : s.beginTxn.ports = s.ports := rfl
@[simp] theorem beginTxn_pending (s : State) : s.beginTxn.pending = s.pending := rfl
@[simp] theorem beginTxn_pb (s : State) : s.beginTxn.txn.pb = [] := rfl
@[simp] theorem beginTxn_pbSpec (s : State) : s.beginTxn.txn.pbSpec = [] := rfl

@[simp] theorem takeReset_out (s : State) : s.takeReset.out = Outputs.reset := rfl
@[simp] theorem takeReset_txn (s : State) : s.takeReset.txn = Txn.reset := rfl
@[simp] theorem takeReset_ports (s : State) : s.takeReset.ports = s.ports := rfl
@[simp] theorem takeReset_pending (s : State) : s.takeReset.pending = s.pending := rfl

@[simp] theorem advancePorts_out (s : State) : s.advancePorts.out = s.out := by
  unfold State.advancePorts; split <;> rfl
@[simp] theorem advancePorts_txn (s : State) : s.advancePorts.txn = s.txn := by
  unfold State.advancePorts; split <;> rfl

@[simp] theorem advance_next (s : State) : advance (.next s) = .next s.advancePorts := rfl
@[simp] theorem advance_fault (r : Fault) : advance (.fault r) = .fault r := rfl
@[simp] theorem advance_refused (r : Refusal) : advance (.refused r) = .refused r := rfl

/-- A step's ports move on only when the step gives a next state. -/
theorem advance_eq_next {o : Host.Outcome State Fault Refusal} {t : State} (h : advance o = .next t) :
    ∃ u, o = .next u ∧ t = u.advancePorts := by
  cases o with
  | next u => exact ⟨u, rfl, by simpa using h.symm⟩
  | fault r => cases h
  | refused r => cases h

end Sys2Proof.Machine
end

