-- ==== Sys2Proof/Laws/Ops.lean ====
section
/-! SUPPORT. What each shared operation can do: narrowing, row bits, the payload buffer, stages. -/

namespace Sys2Proof.Machine

/-! ### Narrowing -/

/-- A value that fits its register is written as it is (R12). -/
theorem fit_of_lt {w n : Nat} (h : n < 2 ^ w) : fit w (n : Int) = BitVec.ofNat w n := by
  have h1 : (0 : Int) ≤ n ∧ (n : Int) < 2 ^ w := ⟨Int.natCast_nonneg n, by exact_mod_cast h⟩
  simp [fit, h1, BitVec.ofInt_natCast]

/-- A value that fits its register reads back as it is (R12). -/
theorem fit_toNat {w n : Nat} (h : n < 2 ^ w) : (fit w (n : Int)).toNat = n := by
  rw [fit_of_lt h, BitVec.toNat_ofNat, Nat.mod_eq_of_lt h]

/-! ### Row bits -/

/-- `RowBit(i)` inside the row and the port is the port's bit (R16, R32). -/
theorem rowBit_ok {f : Frame} {i : Nat} (h : i < f.len.toNat) (h' : i < 230) :
    f.rowBit i = .ok (f.bits.getLsbD i) := by
  simp [Frame.rowBit, h, rowCap, h']

/-! ### The payload buffer -/

/-- A byte that can be read is within the buffer, has every bit specified, and is the value held (R34, R37). -/
theorem memRead_eq_ok {t : Txn} {i : Nat} {b : Byte} :
    t.memRead i = .ok b ↔ i < 20 ∧ Memory.read t.pbSpec i = 0xFF#8 ∧ Memory.read t.pb i = b := by
  unfold Txn.memRead pbBytes
  split
  · simp; omega
  · split
    · simp_all
    · simp_all

/-- A read depends on the two memories at its address only. -/
theorem memRead_congr {t u : Txn} {i : Nat} (h : Memory.read t.pb i = Memory.read u.pb i)
    (h' : Memory.read t.pbSpec i = Memory.read u.pbSpec i) : t.memRead i = u.memRead i := by
  simp [Txn.memRead, h, h']

/-- Both memories of the payload buffer are in canonical form. -/
abbrev Txn.PbWf (t : Txn) : Prop := Memory.wf t.pb ∧ Memory.wf t.pbSpec

/-- A write of a byte within the buffer succeeds (R34). -/
theorem memWrite_ok {t : Txn} {i : Nat} (h : i < 20) (v : Byte) :
    t.memWrite i v =
      .ok { t with pb := Memory.write t.pb i v, pbSpec := Memory.write t.pbSpec i 0xFF#8 } := by
  rw [Txn.memWrite, if_neg (by simp [pbBytes]; omega)]

/-- A write of a bit within the buffer succeeds (R64). -/
theorem bitWrite_ok {t : Txn} {i : Nat} (h : i < 20) (b : Nat) (x : Bool) :
    t.bitWrite i b x =
      .ok { t with
        pb := Memory.write t.pb i (setBit (Memory.read t.pb i) b x)
        pbSpec := Memory.write t.pbSpec i (setBit (Memory.read t.pbSpec i) b true) } := by
  rw [Txn.bitWrite, if_neg (by simp [pbBytes]; omega)]

/-- A byte just written reads as written (R34). -/
theorem memRead_memWrite_same {t t' : Txn} (hw : t.PbWf) {i : Nat} {v : Byte} (h : t.memWrite i v = .ok t') :
    t'.memRead i = .ok v := by
  by_cases hi : i < 20
  · rw [memWrite_ok hi] at h
    cases h
    rw [memRead_eq_ok]
    exact ⟨hi, Memory.read_write_same _ hw.2 _ _, Memory.read_write_same _ hw.1 _ _⟩
  · simp [Txn.memWrite, pbBytes, Nat.le_of_not_lt hi] at h

/-- A write of a byte leaves every other byte as it was (R34). -/
theorem memRead_memWrite_other {t t' : Txn} {i j : Nat} {v : Byte} (hj : j ≠ i) (h : t.memWrite i v = .ok t') :
    t'.memRead j = t.memRead j := by
  by_cases hi : i < 20
  · rw [memWrite_ok hi] at h
    cases h
    exact memRead_congr (Memory.read_write_other _ _ hj) (Memory.read_write_other _ _ hj)
  · simp [Txn.memWrite, pbBytes, Nat.le_of_not_lt hi] at h

/-- The bits of a byte after one of them is set. -/
theorem getLsbD_setBit (b : Byte) {i j : Nat} (hi : i < 8) (hj : j < 8) (x : Bool) :
    (setBit b i x).getLsbD j = if j = i then x else b.getLsbD j := by
  cases x <;> interval_cases i <;> interval_cases j <;> simp [setBit]

/-- No unspecified bit of a byte holds a value. -/
abbrev Masked (v m : Byte) : Prop := v &&& ~~~m = 0#8

/-- Setting a bit of the value and of its mask keeps the value masked. -/
theorem masked_setBit {v m : Byte} (h : Masked v m) {i : Nat} (hi : i < 8) (x : Bool) :
    Masked (setBit v i x) (setBit m i true) := by
  apply BitVec.eq_of_getLsbD_eq
  intro j hj
  have hb := congrArg (·.getLsbD j) h
  simp only [BitVec.getLsbD_and, BitVec.getLsbD_not, hj, decide_true, Bool.true_and,
    getLsbD_setBit _ hi hj] at hb ⊢
  by_cases hji : j = i
  · simp [hji]
  · simpa [hji] using hb

/-- An entry written to a canonical memory at `a` stands there alone. -/
theorem Memory.mem_write_ne {m : Memory} (hm : Memory.wf m) {a : Nat} {v : Byte} {c : Host.Cell}
    (h : c ∈ Memory.write m a v) : (c = (a, v)) ∨ (c ∈ m ∧ c.1 ≠ a) := by
  rcases Memory.mem_write h with h1 | h1
  · exact .inl h1.1
  · by_cases hc : c.1 = a
    · left
      have h2 := Memory.read_of_mem (Memory.write_wf hm a v) h
      rw [hc, Memory.read_write_same _ hm] at h2
      exact Prod.ext hc h2.symm
    · exact .inr ⟨h1, hc⟩

/-- Writing a masked value and its mask at one address keeps a good payload buffer good. -/
theorem pbGood_write {t : Txn} (h : t.PbGood) {i : Nat} (hi : i < 20) {v m : Byte} (hm : Masked v m) :
    ({ t with pb := Memory.write t.pb i v, pbSpec := Memory.write t.pbSpec i m } : Txn).PbGood := by
  obtain ⟨h1, h2, h3, h4⟩ := h
  refine ⟨Memory.write_wf h1 _ _, Memory.write_wf h2 _ _, fun c hc => ?_, fun c hc => ?_⟩
  · rcases Memory.mem_write_ne h2 hc with h | h
    · rw [h]; exact hi
    · exact h3 c h.1
  · rcases Memory.mem_write_ne h1 hc with h | h
    · rw [h]
      exact ⟨hi, by rw [Memory.read_write_same _ h2]; exact hm⟩
    · exact ⟨(h4 c h.1).1, by rw [Memory.read_write_other _ _ h.2]; exact (h4 c h.1).2⟩

/-- A good payload buffer holds no value in an unspecified bit, at any address. -/
theorem masked_read {t : Txn} (h : t.PbGood) (i : Nat) :
    Masked (Memory.read t.pb i) (Memory.read t.pbSpec i) := by
  obtain ⟨h1, -, -, h4⟩ := h
  by_cases hc : ∃ c ∈ t.pb, c.1 = i
  · obtain ⟨c, hc, rfl⟩ := hc
    rw [Memory.read_of_mem h1 hc]
    exact (h4 c hc).2
  · have : Memory.read t.pb i = 0#8 := by
      generalize t.pb = m at hc
      clear h1 h4
      induction m with
      | nil => rfl
      | cons d m ih =>
        simp only [Memory.read]
        rw [if_neg fun h => hc ⟨d, List.mem_cons_self, h.symm⟩]
        exact ih fun ⟨c, hm, he⟩ => hc ⟨c, List.mem_cons_of_mem _ hm, he⟩
    rw [this]
    simp [Masked]

/-- A byte write keeps a good payload buffer good. -/
theorem memWrite_good {t t' : Txn} (h : t.PbGood) {i : Nat} {v : Byte} (hw : t.memWrite i v = .ok t') :
    t'.PbGood := by
  by_cases hi : i < 20
  · rw [memWrite_ok hi] at hw
    cases hw
    exact pbGood_write h hi (by simp [Masked])
  · simp [Txn.memWrite, pbBytes, Nat.le_of_not_lt hi] at hw

/-- A bit write keeps a good payload buffer good. -/
theorem bitWrite_good {t t' : Txn} (h : t.PbGood) {i b : Nat} (hb : b < 8) {x : Bool}
    (hw : t.bitWrite i b x = .ok t') : t'.PbGood := by
  by_cases hi : i < 20
  · rw [bitWrite_ok hi] at hw
    cases hw
    exact pbGood_write h hi (masked_setBit (masked_read h i) hb x)
  · simp [Txn.bitWrite, pbBytes, Nat.le_of_not_lt hi] at hw

/-! ### Stages -/

/-- A stage that reads a readable byte goes on with it. -/
theorem readPb_ok {s : State} {i : Nat} {b : Byte} (h : s.txn.memRead i = .ok b) (k : Byte → Stage) :
    s.readPb i k = k b := by
  simp [State.readPb, h]

@[simp] theorem andThen_pass (s : State) (n : State → Stage) : (Stage.pass s).andThen n = n s := rfl
@[simp] theorem andThen_fail (c : FailCode) (s : State) (n : State → Stage) :
    (Stage.fail c s).andThen n = .fail c s := rfl
@[simp] theorem andThen_fault (r : Fault) (n : State → Stage) : (Stage.fault r).andThen n = .fault r := rfl

/-- A pair of stages passes when each does. -/
theorem andThen_eq_pass {st : Stage} {n : State → Stage} {t : State} (h : st.andThen n = .pass t) :
    ∃ s, st = .pass s ∧ n s = .pass t := by
  cases st with
  | pass s => exact ⟨s, rfl, h⟩
  | fail c s => cases h
  | fault r => cases h

@[simp] theorem settle_pass (s : State) : (Stage.pass s).settle = .next s := rfl
@[simp] theorem settle_fail (c : FailCode) (s : State) : (Stage.fail c s).settle = .next (s.takeFailure c) := rfl
@[simp] theorem settle_fault (r : Fault) : (Stage.fault r).settle = .fault r := rfl

end Sys2Proof.Machine
end

