-- ==== Sys2Proof/Laws/FrontEnd.lean ====
section
/-! SUPPORT. What the front end's operations answer: the search, the packing of bytes, the writes of EXTRACT. -/

namespace Sys2Proof.Machine

/-! ### The search -/

/-- All listed marker bits stand in the row from offset `j` on. -/
def Frame.hits (f : Frame) (j : Nat) (ts : List Nat) : Bool :=
  ts.all fun t => f.bits.getLsbD (j + t) == markerBit t

/-- The comparison with the marker faults at no bit within the row. -/
theorem matches_eq {f : Frame} (hf : f.len.toNat ≤ 230) {j : Nat} {ts : List Nat}
    (h : ∀ t ∈ ts, j + t < f.len.toNat) : f.matches j ts = .ok (f.hits j ts) := by
  induction ts with
  | nil => rfl
  | cons t ts ih =>
    have ht := h t List.mem_cons_self
    simp only [Frame.matches, rowBit_ok ht (by omega), Frame.hits, List.all_cons]
    split
    · rename_i heq
      rw [ih fun u hu => h u (List.mem_cons_of_mem _ hu)]
      simp [heq, Frame.hits]
    · rename_i heq
      simp [heq]

/-- The search answers the first offset in its range at which the marker stands, or `LEN`. -/
theorem searchFrom_eq {f : Frame} (hf : f.len.toNat ≤ 230) {n j : Nat} (h : n = 0 ∨ j + n + 31 ≤ f.len.toNat) :
    f.searchFrom n j =
      .ok (((List.range' j n).find? fun i => f.hits i (List.range markerBits)).getD f.len.toNat) := by
  induction n generalizing j with
  | zero => rfl
  | succ n ih =>
    have hm : f.matches j (List.range markerBits) = .ok (f.hits j (List.range markerBits)) := by
      refine matches_eq hf fun t ht => ?_
      have := List.mem_range.1 ht
      simp only [markerBits] at this
      omega
    simp only [Frame.searchFrom, hm, List.range'_succ, List.find?_cons]
    cases f.hits j (List.range markerBits) with
    | true => rfl
    | false => exact ih (by omega)

/-- The model's marker bits are the constant's bits, most significant first (R3, R33). -/
theorem markerBit_eq {t : Nat} (h : t < 32) : markerBit t = (0xAAAA2DD4#32).getLsbD (31 - t) := by
  interval_cases t <;> decide

/-- The comparison holds exactly where the marker stands. -/
theorem hits_iff {f : Frame} {j : Nat} (h : j + 32 ≤ f.len.toNat) :
    f.hits j (List.range markerBits) = true ↔ f.MarkerAt j := by
  simp only [Frame.hits, markerBits, List.all_eq_true, List.mem_range, beq_iff_eq]
  refine ⟨fun hh => ⟨h, fun t ht => ?_⟩, fun hh t ht => ?_⟩
  · rw [hh t ht, markerBit_eq ht]
  · rw [hh.2 t ht, markerBit_eq ht]

/-- The search answers the first marker, or `LEN` when there is none (R61). -/
theorem search_spec {f : Frame} (hf : f.len.toNat ≤ 230) :
    ∃ k, f.search = .ok k ∧ (f.FirstMarker k ∨ (k = f.len.toNat ∧ ∀ j, ¬ f.MarkerAt j)) := by
  unfold Frame.search
  rw [searchFrom_eq hf (by simp only [markerBits]; omega)]
  refine ⟨_, rfl, ?_⟩
  cases hfind : (List.range' 0 (f.len.toNat + 1 - markerBits)).find? fun i =>
      f.hits i (List.range markerBits) with
  | some k =>
    left
    obtain ⟨hk, as, bs, happ, has⟩ := List.find?_eq_some_iff_append.1 hfind
    have hkmem : k ∈ List.range' 0 (f.len.toNat + 1 - markerBits) := by rw [happ]; simp
    have hk32 : k + 32 ≤ f.len.toNat := by
      simp only [List.mem_range'_1, markerBits] at hkmem; omega
    refine ⟨(hits_iff hk32).1 (by simpa using hk), fun j hj hmark => ?_⟩
    have hlen : as.length = k := by
      have h0 := congrArg (fun l => l[as.length]?) happ
      simp only [List.getElem?_append_right (Nat.le_refl _), Nat.sub_self, List.getElem?_cons_zero] at h0
      rw [List.getElem?_eq_some_iff] at h0
      obtain ⟨hlt, h0⟩ := h0
      simpa using h0
    have hjas : j ∈ as := by
      have h0 := congrArg (fun l => l[j]?) happ
      simp only [List.getElem?_append_left (hlen ▸ hj)] at h0
      have hjl : j < (List.range' 0 (f.len.toNat + 1 - markerBits)).length := by
        simp only [List.length_range', markerBits]; omega
      rw [List.getElem?_eq_getElem hjl] at h0
      have h1 := List.getElem?_eq_some_iff.1 h0.symm
      obtain ⟨hlt, h1⟩ := h1
      have : as[j] = j := by rw [h1]; simp
      rw [← this]; exact List.getElem_mem hlt
    have := has j hjas
    simp [(hits_iff hmark.1).2 hmark] at this
  | none =>
    right
    refine ⟨rfl, fun j hmark => ?_⟩
    have := List.find?_eq_none.1 hfind j (by
      have := hmark.1
      simp only [List.mem_range'_1, markerBits]; omega)
    exact this ((hits_iff hmark.1).2 hmark)

/-- A frame has one first marker at most. -/
theorem firstMarker_unique {f : Frame} {j k : Nat} (hj : f.FirstMarker j) (hk : f.FirstMarker k) : j = k := by
  rcases Nat.lt_trichotomy j k with h | h | h
  · exact absurd hj.1 (hk.2 j h)
  · exact h
  · exact absurd hk.1 (hj.2 k h)

/-- The search finds the first marker of a frame that has one. -/
theorem search_of_firstMarker {f : Frame} (hf : f.len.toNat ≤ 230) {k : Nat} (hk : f.FirstMarker k) :
    f.search = .ok k := by
  obtain ⟨k', hs, h | h⟩ := search_spec hf
  · rw [hs, firstMarker_unique h hk]
  · exact absurd hk.1 (h.2 k)

/-! ### PRE_OFFSET and REMAIN_CHECK -/

/-- Everything PRE_OFFSET can do: the value its register receives, and how it ends (R62). -/
theorem preOffset_spec (s : State) :
    ∃ v : BitVec 16, (s.txn.k.toNat ≤ 65503 → v.toNat = s.txn.k.toNat + 32) ∧
      preOffset s = if s.ports.frame.len.toNat ≤ s.txn.k.toNat + 32
        then .fail .preambleNotFound (s.setTxn { s.txn with soff := v })
        else .pass (s.setTxn { s.txn with soff := v }) := by
  refine ⟨fit 16 (s.txn.k.toNat + markerBits), fun h => ?_, rfl⟩
  have e : (s.txn.k.toNat : Int) + markerBits = ((s.txn.k.toNat + 32 : Nat) : Int) := by simp [markerBits]
  rw [e]
  exact fit_toNat (by omega)

/-- Everything REMAIN_CHECK can do: the value its register receives, and how it ends (R63). -/
theorem remainCheck_spec (s : State) :
    ∃ v : BitVec 16,
      (s.txn.soff.toNat ≤ s.ports.frame.len.toNat → v.toNat = s.ports.frame.len.toNat - s.txn.soff.toNat) ∧
      remainCheck s = if s.ports.frame.len.toNat < s.txn.soff.toNat + 144
        then .fail .payloadTooShort (s.setTxn { s.txn with rem := v })
        else .pass (s.setTxn { s.txn with rem := v }) := by
  refine ⟨fit 16 s.remaining, fun h => ?_, ?_⟩
  · have e : s.remaining = ((s.ports.frame.len.toNat - s.txn.soff.toNat : Nat) : Int) := by
      unfold State.remaining; omega
    rw [e]
    exact fit_toNat (by omega)
  · have hiff : s.remaining < remainMin ↔ s.ports.frame.len.toNat < s.txn.soff.toNat + 144 := by
      unfold State.remaining remainMin; omega
    simp only [remainCheck, hiff]

/-! ### Packing -/

/-- Packing faults at no bit within the row. -/
theorem pack_eq {f : Frame} (hf : f.len.toNat ≤ 230) {off : Nat} {ms : List Nat}
    (h : ∀ m ∈ ms, off + m < f.len.toNat) :
    f.pack off ms = .ok ((ms.map fun m => (f.bits.getLsbD (off + m)).toNat * 2 ^ (7 - m)).sum) := by
  induction ms with
  | nil => rfl
  | cons m ms ih =>
    have hm := h m List.mem_cons_self
    simp only [Frame.pack, rowBit_ok hm (by omega), ih fun u hu => h u (List.mem_cons_of_mem _ hu),
      List.map_cons, List.sum_cons]

/-- A packed byte is below 256. -/
theorem byteAt_lt (f : Frame) (off : Nat) : f.byteAt off < 256 := by
  simp only [Frame.byteAt, show List.range 8 = [0, 1, 2, 3, 4, 5, 6, 7] from rfl, List.map_cons, List.map_nil,
    List.sum_cons, List.sum_nil]
  generalize f.bits.getLsbD (off + 0) = b0
  generalize f.bits.getLsbD (off + 1) = b1
  generalize f.bits.getLsbD (off + 2) = b2
  generalize f.bits.getLsbD (off + 3) = b3
  generalize f.bits.getLsbD (off + 4) = b4
  generalize f.bits.getLsbD (off + 5) = b5
  generalize f.bits.getLsbD (off + 6) = b6
  generalize f.bits.getLsbD (off + 7) = b7
  have := b0.toNat_le; have := b1.toNat_le; have := b2.toNat_le; have := b3.toNat_le
  have := b4.toNat_le; have := b5.toNat_le; have := b6.toNat_le; have := b7.toNat_le
  omega

/-- The bits of a packed byte, most significant first (R35). -/
theorem byteAt_bit (f : Frame) (off : Nat) {m : Nat} (hm : m < 8) :
    (BitVec.ofNat 8 (f.byteAt off)).getLsbD (7 - m) = f.bits.getLsbD (off + m) := by
  simp only [Frame.byteAt, show List.range 8 = [0, 1, 2, 3, 4, 5, 6, 7] from rfl, List.map_cons, List.map_nil,
    List.sum_cons, List.sum_nil]
  have h0 : ∀ b0 b1 b2 b3 b4 b5 b6 b7 : Bool, ∀ m < 8,
      (BitVec.ofNat 8 (b0.toNat * 2 ^ (7 - 0) + (b1.toNat * 2 ^ (7 - 1) + (b2.toNat * 2 ^ (7 - 2) +
        (b3.toNat * 2 ^ (7 - 3) + (b4.toNat * 2 ^ (7 - 4) + (b5.toNat * 2 ^ (7 - 5) +
        (b6.toNat * 2 ^ (7 - 6) + (b7.toNat * 2 ^ (7 - 7) + 0))))))))).getLsbD (7 - m) =
      [b0, b1, b2, b3, b4, b5, b6, b7].getD m false := by decide
  rw [h0 _ _ _ _ _ _ _ _ m hm]
  interval_cases m <;> rfl

/-! ### The writes of EXTRACT -/

/-- Two sets of transaction-local values agree outside the payload buffer. -/
abbrev Txn.SameButPb (t u : Txn) : Prop := u = { t with pb := u.pb, pbSpec := u.pbSpec }

/-- What writing whole bytes does: the listed bytes hold the row's bits, the others are as they were. -/
theorem wholeBytes_spec {f : Frame} (hf : f.len.toNat ≤ 230) {soff : Nat} {is : List Nat} {t : Txn}
    (hw : t.PbWf) (hnd : is.Nodup) (h20 : ∀ i ∈ is, i < 20) (hlen : ∀ i ∈ is, soff + 8 * i + 8 ≤ f.len.toNat) :
    ∃ u, f.wholeBytes soff is t = .ok u ∧ t.SameButPb u ∧ u.PbWf ∧ (t.PbGood → u.PbGood) ∧
      (∀ i ∈ is, u.memRead i = .ok (BitVec.ofNat 8 (f.byteAt (soff + 8 * i)))) ∧
      ∀ j, j ∉ is → Memory.read u.pb j = Memory.read t.pb j ∧ Memory.read u.pbSpec j = Memory.read t.pbSpec j := by
  induction is generalizing t with
  | nil => exact ⟨t, rfl, rfl, hw, id, by simp, fun _ _ => ⟨rfl, rfl⟩⟩
  | cons i is ih =>
    have hi := h20 i List.mem_cons_self
    have hl := hlen i List.mem_cons_self
    obtain ⟨hni, hnd'⟩ := List.nodup_cons.1 hnd
    have hp : f.pack (soff + 8 * i) (List.range 8) = .ok (f.byteAt (soff + 8 * i)) :=
      pack_eq hf fun m hm => by have := List.mem_range.1 hm; omega
    have hmw := memWrite_ok (t := t) hi (BitVec.ofNat 8 (f.byteAt (soff + 8 * i)))
    obtain ⟨u, hu, hs, hwu, hg, hr, ho⟩ :=
      ih (t := { t with
        pb := Memory.write t.pb i (BitVec.ofNat 8 (f.byteAt (soff + 8 * i)))
        pbSpec := Memory.write t.pbSpec i 0xFF#8 })
        ⟨Memory.write_wf hw.1 _ _, Memory.write_wf hw.2 _ _⟩ hnd'
        (fun j hj => h20 j (List.mem_cons_of_mem _ hj)) (fun j hj => hlen j (List.mem_cons_of_mem _ hj))
    refine ⟨u, ?_, hs, hwu, fun h => hg (memWrite_good h hmw), fun j hj => ?_, fun j hj => ?_⟩
    · simp only [Frame.wholeBytes, hp, hmw, hu]
    · rcases List.mem_cons.1 hj with h | h
      · subst h
        rw [memRead_congr (ho j hni).1 (ho j hni).2]
        exact memRead_memWrite_same hw hmw
      · exact hr j h
    · have hji : j ≠ i := fun h => hj (h ▸ List.mem_cons_self)
      have hjis : j ∉ is := fun h => hj (List.mem_cons_of_mem _ h)
      exact ⟨by rw [(ho j hjis).1, Memory.read_write_other _ _ hji],
        by rw [(ho j hjis).2, Memory.read_write_other _ _ hji]⟩

/-- What writing the bits of a partial byte does: the listed bits hold the row's bits and are specified, the
other bits of the byte and the other bytes are as they were. -/
theorem partialByte_spec {f : Frame} (hf : f.len.toNat ≤ 230) {soff i : Nat} (hi : i < 20) {ms : List Nat}
    {t : Txn} (hw : t.PbWf) (hnd : ms.Nodup) (h8 : ∀ m ∈ ms, m < 8)
    (hlen : ∀ m ∈ ms, soff + 8 * i + m < f.len.toNat) :
    ∃ u, f.partialByte soff i ms t = .ok u ∧ t.SameButPb u ∧ u.PbWf ∧ (t.PbGood → u.PbGood) ∧
      (∀ m < 8, (Memory.read u.pb i).getLsbD (7 - m) =
        if m ∈ ms then f.bits.getLsbD (soff + 8 * i + m) else (Memory.read t.pb i).getLsbD (7 - m)) ∧
      (∀ m < 8, (Memory.read u.pbSpec i).getLsbD (7 - m) =
        if m ∈ ms then true else (Memory.read t.pbSpec i).getLsbD (7 - m)) ∧
      ∀ j, j ≠ i → Memory.read u.pb j = Memory.read t.pb j ∧ Memory.read u.pbSpec j = Memory.read t.pbSpec j := by
  induction ms generalizing t with
  | nil => exact ⟨t, rfl, rfl, hw, id, by simp, by simp, fun _ _ => ⟨rfl, rfl⟩⟩
  | cons m ms ih =>
    have hm := h8 m List.mem_cons_self
    have hl := hlen m List.mem_cons_self
    obtain ⟨hnm, hnd'⟩ := List.nodup_cons.1 hnd
    have hr := rowBit_ok (f := f) hl (by omega)
    have hbw := bitWrite_ok (t := t) hi (7 - m) (f.bits.getLsbD (soff + 8 * i + m))
    obtain ⟨u, hu, hs, hwu, hg, hv, hsp, ho⟩ :=
      ih (t := { t with
        pb := Memory.write t.pb i (setBit (Memory.read t.pb i) (7 - m) (f.bits.getLsbD (soff + 8 * i + m)))
        pbSpec := Memory.write t.pbSpec i (setBit (Memory.read t.pbSpec i) (7 - m) true) })
        ⟨Memory.write_wf hw.1 _ _, Memory.write_wf hw.2 _ _⟩ hnd'
        (fun j hj => h8 j (List.mem_cons_of_mem _ hj)) (fun j hj => hlen j (List.mem_cons_of_mem _ hj))
    refine ⟨u, ?_, hs, hwu, fun h => hg (bitWrite_good h (by omega) hbw), fun n hn => ?_, fun n hn => ?_,
      fun j hj => ?_⟩
    · simp only [Frame.partialByte, hr, hbw, hu]
    · rw [hv n hn, Memory.read_write_same _ hw.1, getLsbD_setBit _ (by omega) (by omega)]
      by_cases hnm' : n = m
      · subst hnm'; simp [hnm]
      · have : 7 - n ≠ 7 - m := by omega
        simp [hnm', this]
    · rw [hsp n hn, Memory.read_write_same _ hw.2, getLsbD_setBit _ (by omega) (by omega)]
      by_cases hnm' : n = m
      · subst hnm'; simp
      · have : 7 - n ≠ 7 - m := by omega
        simp [hnm', this]
    · exact ⟨by rw [(ho j hj).1, Memory.read_write_other _ _ hj],
        by rw [(ho j hj).2, Memory.read_write_other _ _ hj]⟩

/-- What EXTRACT does to the payload buffer (R35, R37, R64): whole bytes, the bits of a partial byte, and
nothing else. -/
theorem extractPb_spec {s : State} (hf : s.ports.frame.len.toNat ≤ 230) (hw : s.txn.PbWf)
    (hlen : s.txn.soff.toNat + s.extractBits ≤ s.ports.frame.len.toNat) :
    ∃ u, s.extractPb = .ok u ∧ s.txn.SameButPb u ∧ u.PbWf ∧ (s.txn.PbGood → u.PbGood) ∧
      (∀ i < s.extractBits / 8,
        u.memRead i = .ok (BitVec.ofNat 8 (s.ports.frame.byteAt (s.txn.soff.toNat + 8 * i)))) ∧
      (∀ m < 8, (Memory.read u.pb (s.extractBits / 8)).getLsbD (7 - m) =
        if m < s.extractBits % 8 then
          s.ports.frame.bits.getLsbD (s.txn.soff.toNat + 8 * (s.extractBits / 8) + m)
        else (Memory.read s.txn.pb (s.extractBits / 8)).getLsbD (7 - m)) ∧
      (∀ m < 8, (Memory.read u.pbSpec (s.extractBits / 8)).getLsbD (7 - m) =
        if m < s.extractBits % 8 then true else (Memory.read s.txn.pbSpec (s.extractBits / 8)).getLsbD (7 - m)) ∧
      ∀ j, s.extractBits / 8 < j →
        Memory.read u.pb j = Memory.read s.txn.pb j ∧ Memory.read u.pbSpec j = Memory.read s.txn.pbSpec j := by
  have hle : s.extractBits ≤ 160 := by simp only [State.extractBits, extractMax]; omega
  obtain ⟨t, ht, hs, hwt, hg, hr, ho⟩ :=
    wholeBytes_spec (f := s.ports.frame) hf (soff := s.txn.soff.toNat) (is := List.range (s.extractBits / 8))
      (t := s.txn) hw List.nodup_range (fun i hi => by have := List.mem_range.1 hi; omega)
      (fun i hi => by have := List.mem_range.1 hi; omega)
  by_cases h20 : s.extractBits / 8 < 20
  · obtain ⟨u, hu, hs', hwu, hg', hv, hsp, ho'⟩ :=
      partialByte_spec (f := s.ports.frame) hf (soff := s.txn.soff.toNat) h20 (ms := List.range (s.extractBits % 8))
        (t := t) hwt List.nodup_range (fun m hm => by have := List.mem_range.1 hm; omega)
        (fun m hm => by have := List.mem_range.1 hm; omega)
    have hq : s.extractBits / 8 ∉ List.range (s.extractBits / 8) := by simp
    refine ⟨u, by simp only [State.extractPb, ht, hu], ?_, hwu, fun h => hg' (hg h), fun i hi => ?_, fun m hm => ?_,
      fun m hm => ?_, fun j hj => ?_⟩
    · unfold Txn.SameButPb at hs hs' ⊢
      rw [hs', hs]
    · rw [memRead_congr (ho' i (by omega)).1 (ho' i (by omega)).2]
      exact hr i (List.mem_range.2 hi)
    · rw [hv m hm, (ho _ hq).1]; simp
    · rw [hsp m hm, (ho _ hq).2]; simp
    · have hj' : j ∉ List.range (s.extractBits / 8) := by simp; omega
      exact ⟨by rw [(ho' j (by omega)).1, (ho j hj').1], by rw [(ho' j (by omega)).2, (ho j hj').2]⟩
  · have h0 : s.extractBits % 8 = 0 := by omega
    have hq : s.extractBits / 8 ∉ List.range (s.extractBits / 8) := by simp
    refine ⟨t, by simp only [State.extractPb, ht, h0]; rfl, hs, hwt, hg,
      fun i hi => hr i (List.mem_range.2 hi), fun m hm => ?_, fun m hm => ?_, fun j hj => ?_⟩
    · rw [(ho _ hq).1]; simp [h0]
    · rw [(ho _ hq).2]; simp [h0]
    · exact ho j (by simp; omega)

end Sys2Proof.Machine
end

