-- ==== Sys2Proof/Laws/PerInstr.lean ====
section
/-! SUPPORT. Per instruction: the encoding as syntax. A host command's bytes decode to it; a micro-operation has no
bytes and is not issued by the host. -/

namespace Sys2Proof.Laws.Encoding

/-- A well-formed instruction is read back from its bytes, whatever follows them; any other has no bytes
(R45, R57). -/
def Statement (i : Instr) : Prop :=
  (i.wellFormed = true → ∀ rest, Sys2Proof.decode (encode i ++ rest) = .ok (i, rest)) ∧
  (i.wellFormed = false → encode i = [])

theorem decode : Statement .decode := ⟨fun _ _ => rfl, nofun⟩
theorem nop : Statement .nop := ⟨fun _ _ => rfl, nofun⟩
theorem shapeCheck : Statement .shapeCheck := ⟨nofun, fun _ => rfl⟩
theorem preambleSearch : Statement .preambleSearch := ⟨nofun, fun _ => rfl⟩
theorem preOffset : Statement .preOffset := ⟨nofun, fun _ => rfl⟩
theorem remainCheck : Statement .remainCheck := ⟨nofun, fun _ => rfl⟩
theorem extract : Statement .extract := ⟨nofun, fun _ => rfl⟩
theorem csumAcc : Statement .csumAcc := ⟨nofun, fun _ => rfl⟩
theorem csumCheck : Statement .csumCheck := ⟨nofun, fun _ => rfl⟩
theorem varsel : Statement .varsel := ⟨nofun, fun _ => rfl⟩
theorem gustDec : Statement .gustDec := ⟨nofun, fun _ => rfl⟩
theorem speedDec : Statement .speedDec := ⟨nofun, fun _ => rfl⟩
theorem wdirDec : Statement .wdirDec := ⟨nofun, fun _ => rfl⟩
theorem rainDec : Statement .rainDec := ⟨nofun, fun _ => rfl⟩
theorem tempDec : Statement .tempDec := ⟨nofun, fun _ => rfl⟩
theorem tempSign : Statement .tempSign := ⟨nofun, fun _ => rfl⟩
theorem humDec : Statement .humDec := ⟨nofun, fun _ => rfl⟩
theorem windScale : Statement .windScale := ⟨nofun, fun _ => rfl⟩
theorem muxOk : Statement .muxOk := ⟨nofun, fun _ => rfl⟩
theorem muxFail : Statement .muxFail := ⟨nofun, fun _ => rfl⟩

end Sys2Proof.Laws.Encoding
end

