-- ==== Sys2Proof/Laws/Script.lean ====
section
/-! SUPPORT. The bits of a frame that a host script builds. -/

namespace Sys2Proof.Machine

/-- A packed row of `n` bits is below `2 ^ n`. -/
theorem packRow_lt (g : Nat → Bool) (n : Nat) : packRow g n < 2 ^ n := by
  induction n with
  | zero => simp [packRow]
  | succ n ih => simp only [packRow]; split <;> (rw [Nat.pow_succ]; omega)

/-- The bits of a packed row. -/
theorem packRow_bit (g : Nat → Bool) (n i : Nat) : (packRow g n).testBit i = (decide (i < n) && g i) := by
  induction n with
  | zero => simp [packRow]
  | succ n ih =>
    simp only [packRow]
    have hlt := packRow_lt g n
    rcases Nat.lt_trichotomy i n with h | h | h
    · have : (packRow g n + if g n = true then 2 ^ n else 0).testBit i = (packRow g n).testBit i := by
        split
        · rw [Nat.add_comm, Nat.testBit_two_pow_add_gt h]
        · simp
      rw [this, ih]
      simp [h, Nat.lt_succ_of_lt h]
    · subst h
      cases hg : g i
      · simp [ih]
      · simp [Nat.add_comm, Nat.testBit_two_pow_add_eq, ih]
    · have : (packRow g n + if g n = true then 2 ^ n else 0) < 2 ^ i := by
        have h2 : 2 ^ (n + 1) ≤ 2 ^ i := Nat.pow_le_pow_right (by decide) h
        rw [Nat.pow_succ] at h2
        split <;> omega
      rw [Nat.testBit_lt_two_pow this]
      simp
      omega

/-- The bits of a frame built bit by bit (R16). -/
theorem ofBits_bit (rows len : Nat) (g : Nat → Bool) {i : Nat} (hi : i < 230) :
    (Frame.ofBits rows len g).bits.getLsbD i = g i := by
  show (BitVec.ofNat 230 _).getLsbD i = _
  rw [BitVec.getLsbD_ofNat, packRow_bit]
  simp [hi]

/-- The length of a DECODE_PAYLOAD frame (R59). -/
theorem ofPayload_len {k : Nat} (hk : k ≤ 38) (pb : BitVec 160) : (Frame.ofPayload k pb).len.toNat = k + 192 := by
  show (BitVec.ofNat 16 (k + 192)).toNat = _
  rw [BitVec.toNat_ofNat]
  omega

/-- The bits of a DECODE_PAYLOAD frame (R59). -/
theorem ofPayload_bit (k : Nat) (pb : BitVec 160) {i : Nat} (hi : i < 230) :
    (Frame.ofPayload k pb).bits.getLsbD i = payloadRowBit k pb i :=
  ofBits_bit _ _ _ hi

/-- The bits of a payload byte (R57). -/
theorem pbByte_bit (pb : BitVec 160) {i j : Nat} (hj : j < 8) :
    (pbByte pb i).getLsbD j = pb.getLsbD (152 - 8 * i + j) := by
  simp [pbByte, hj]

end Sys2Proof.Machine
end

