-- ==== Sys2Proof/Laws/Stages.lean ====
section
/-! SUPPORT. What each group of stages answers: the front end, the checksum, the field decoder. -/

namespace Sys2Proof.Machine

/-! ### The front end -/

/-- SHAPE_CHECK passes exactly on the accepted shapes (R4, R60). -/
theorem shapeCheck_eq (s : State) :
    shapeCheck s = if s.ports.frame.ShapeOk then .pass s else .fail .frameLengthOutOfRange s := by
  unfold shapeCheck rowsReq lenMin lenMax
  split <;> split <;> first | rfl | (exfalso; omega)

/-- The transaction-local values after SHAPE_CHECK, PREAMBLE_SEARCH and PRE_OFFSET have found `k`. -/
def Txn.withMarker (t : Txn) (k : Nat) : Txn :=
  { t with k := BitVec.ofNat 16 k, soff := BitVec.ofNat 16 (k + 32) }

/-- The first three stages answer a failure or the marker's position (R60, R61, R62). -/
theorem marker_stages {s : State} (hf : s.ports.frame.ShapeOk) :
    (∃ k, s.ports.frame.FirstMarker k ∧ k + 32 < s.ports.frame.len.toNat ∧
      ((shapeCheck s).andThen preambleSearch).andThen preOffset = .pass (s.setTxn (s.txn.withMarker k))) ∨
    ((∀ j, s.ports.frame.MarkerAt j → s.ports.frame.len.toNat ≤ j + 32) ∧
      ∃ k, ((shapeCheck s).andThen preambleSearch).andThen preOffset =
        .fail .preambleNotFound (s.setTxn (s.txn.withMarker k))) := by
  obtain ⟨k, hk, hcase⟩ := search_spec hf.2.2
  have hlen := hf.2.2
  have hk230 : k ≤ 230 := by
    rcases hcase with h | h
    · have := h.1.1; omega
    · omega
  have hk16 : (BitVec.ofNat 16 k).toNat = k := by rw [BitVec.toNat_ofNat]; omega
  have hcast : (k : Int) + 32 = ((k + 32 : Nat) : Int) := by omega
  have hfit : fit 16 ((k : Int) + 32) = BitVec.ofNat 16 (k + 32) := by
    rw [hcast]
    exact fit_of_lt (by omega)
  have hsearch : (shapeCheck s).andThen preambleSearch = .pass (s.setTxn { s.txn with k := BitVec.ofNat 16 k }) := by
    have hsc : shapeCheck s = .pass s := (shapeCheck_eq s).trans (if_pos hf)
    rw [hsc]
    show preambleSearch s = _
    unfold preambleSearch
    rw [hk]
  have hoff : preOffset (s.setTxn { s.txn with k := BitVec.ofNat 16 k }) =
      if s.ports.frame.len.toNat ≤ k + 32 then .fail .preambleNotFound (s.setTxn (s.txn.withMarker k))
      else .pass (s.setTxn (s.txn.withMarker k)) := by
    unfold preOffset
    simp only [setTxn_txn, setTxn_ports, hk16, markerBits, Nat.cast_ofNat, hfit, ge_iff_le]
    rfl
  rw [hsearch, andThen_pass, hoff]
  by_cases hlt : k + 32 < s.ports.frame.len.toNat
  · exact .inl ⟨k, hcase.resolve_right fun h => by omega, hlt, if_neg (by omega)⟩
  · refine .inr ⟨fun j hj => ?_, k, if_pos (by omega)⟩
    rcases hcase with h | h
    · have : k ≤ j := Nat.le_of_not_lt fun hc => h.2 j hc hj
      omega
    · exact absurd hj (h.2 j)

/-- The front end answers one of four outcomes (R65). -/
theorem frontEnd_spec {s : State} (hw : s.txn.PbGood) :
    (¬ s.ports.frame.ShapeOk ∧ frontEnd s = .fail .frameLengthOutOfRange s) ∨
    (s.ports.frame.ShapeOk ∧ (∀ j, s.ports.frame.MarkerAt j → s.ports.frame.len.toNat ≤ j + 32) ∧
      ∃ u, u.PbGood ∧ frontEnd s = .fail .preambleNotFound (s.setTxn u)) ∨
    (∃ k, s.ports.frame.ShapeOk ∧ s.ports.frame.FirstMarker k ∧ k + 32 < s.ports.frame.len.toNat ∧
      s.ports.frame.len.toNat - (k + 32) < 144 ∧
      ∃ u, u.PbGood ∧ frontEnd s = .fail .payloadTooShort (s.setTxn u)) ∨
    ∃ k, s.ports.frame.Extractable k ∧ ∃ u, u.PbGood ∧ frontEnd s = .pass (s.setTxn u) ∧
      u.k.toNat = k ∧ u.soff.toNat = k + 32 ∧ u.rem.toNat = s.ports.frame.len.toNat - (k + 32) ∧
      u.nbits.toNat = min (s.ports.frame.len.toNat - (k + 32)) 160 ∧
      ∀ i < u.nbits.toNat / 8, u.memRead i = .ok (BitVec.ofNat 8 (s.ports.frame.payloadByte k i)) := by
  by_cases hf : s.ports.frame.ShapeOk
  · right
    have hlen := hf.2.2
    rcases marker_stages hf with ⟨k, hk, hlt, hst⟩ | ⟨hno, k, hst⟩
    · right
      have hsoff : ((k + 32 : Nat) : Int) = (BitVec.ofNat 16 (k + 32)).toNat := by simp; omega
      have hrem : (s.setTxn (s.txn.withMarker k)).remaining =
          ((s.ports.frame.len.toNat - (k + 32) : Nat) : Int) := by
        simp only [State.remaining, setTxn_ports, setTxn_txn, Txn.withMarker, ← hsoff]
        omega
      have hfit : fit 16 ((s.ports.frame.len.toNat - (k + 32) : Nat) : Int) =
          BitVec.ofNat 16 (s.ports.frame.len.toNat - (k + 32)) := fit_of_lt (by omega)
      simp only [frontEnd, hst, andThen_pass, remainCheck, hrem, hfit, setTxn_setTxn, setTxn_txn]
      by_cases h144 : s.ports.frame.len.toNat - (k + 32) < 144
      · left
        refine ⟨k, hf, hk, hlt, h144, { s.txn.withMarker k with
          rem := BitVec.ofNat 16 (s.ports.frame.len.toNat - (k + 32)) }, hw, ?_⟩
        rw [if_pos (by simp only [remainMin]; omega)]; rfl
      · right
        rw [if_neg (by simp only [remainMin]; omega)]
        simp only [andThen_pass]
        refine ⟨k, ⟨hf, hk, by omega⟩, ?_⟩
        generalize hv : s.setTxn { s.txn.withMarker k with
          rem := BitVec.ofNat 16 (s.ports.frame.len.toNat - (k + 32)) } = v
        have hvports : v.ports = s.ports := by rw [← hv]; rfl
        have hvsoff : v.txn.soff.toNat = k + 32 := by rw [← hv]; simp [Txn.withMarker]; omega
        have hvk : v.txn.k.toNat = k := by rw [← hv]; simp [Txn.withMarker]; omega
        have hvrem : v.txn.rem.toNat = s.ports.frame.len.toNat - (k + 32) := by
          rw [← hv]; simp; omega
        have hvgood : v.txn.PbGood := by rw [← hv]; exact hw
        have hve : v.extractBits = min (s.ports.frame.len.toNat - (k + 32)) 160 := by
          simp only [State.extractBits, hvrem, extractMax]
        obtain ⟨u, hu, hsame, -, hgood, hread, -⟩ :=
          extractPb_spec (s := v) (by rw [hvports]; omega) ⟨hvgood.1, hvgood.2.1⟩
            (by rw [hvports, hvsoff, hve]; omega)
        have hn : (BitVec.ofNat 8 v.extractBits).toNat = v.extractBits := by
          rw [hve, BitVec.toNat_ofNat]; omega
        refine ⟨{ u with
            nbits := BitVec.ofNat 8 v.extractBits, plenBytes := BitVec.ofNat 5 (v.extractBits / 8) },
          hgood hvgood, ?_, ?_, ?_, ?_, ?_, ?_⟩
        · simp only [extract, hu]; rw [← hv]; rfl
        · simp only; rw [hsame]; exact hvk
        · simp only; rw [hsame]; exact hvsoff
        · simp only; rw [hsame]; exact hvrem
        · simp only; rw [hn, hve]
        · intro i hi
          simp only [hn] at hi
          have hreadi := hread i hi
          rw [hvports, hvsoff] at hreadi
          exact hreadi
    · left
      refine ⟨hf, hno, s.txn.withMarker k, hw, ?_⟩
      simp only [frontEnd, hst, andThen_fail]
  · left
    refine ⟨hf, ?_⟩
    simp only [frontEnd, shapeCheck_eq, if_neg hf, andThen_fail]

/-! ### The checksum -/

/-- The accumulator of readable bytes, in integers (R66). -/
theorem accumulate_eq {t : Txn} {b : Nat → Byte} {is : List Nat} (h : ∀ i ∈ is, t.memRead i = .ok (b i))
    {acc : Nat} (ha : acc < 256) :
    t.accumulate is acc = .ok ((acc + (is.map fun i => 256 - (b i).toNat).sum) % 256) := by
  induction is generalizing acc with
  | nil => simp [Txn.accumulate, Nat.mod_eq_of_lt ha]
  | cons i is ih =>
    simp only [Txn.accumulate, h i List.mem_cons_self, List.map_cons, List.sum_cons]
    rw [ih (fun j hj => h j (List.mem_cons_of_mem _ hj)) (Nat.mod_lt _ (by omega)), Nat.mod_add_mod, Nat.add_assoc]

/-- The sum of the terms `256 - b`, with the sum of the bytes, is 256 for each byte. -/
theorem sum_complement {b : Nat → Byte} (is : List Nat) :
    (is.map fun i => 256 - (b i).toNat).sum + (is.map fun i => (b i).toNat).sum = 256 * is.length := by
  induction is with
  | nil => rfl
  | cons i is ih =>
    have := (b i).isLt
    simp only [List.map_cons, List.sum_cons, List.length_cons]
    omega

/-- CSUM_ACC of a readable span (R66). -/
theorem csumAcc_eq {s : State} {b : Nat → Byte} (h : ∀ i ∈ List.range' 2 16, s.txn.memRead i = .ok (b i)) :
    csumAcc s = .pass (s.setTxn { s.txn with
      csum := BitVec.ofNat 8 (((List.range' 2 16).map fun i => 256 - (b i).toNat).sum % 256) }) := by
  have h' := accumulate_eq h (acc := 0) (by omega)
  have hspan : csumSpan = List.range' 2 16 := rfl
  simp only [csumAcc, hspan, h', Nat.zero_add]

/-- The checksum passes exactly when the span sums to 255 mod 256 (R68). -/
theorem checksum_spec {s : State} {b : Nat → Byte} (h : ∀ i ∈ List.range' 2 16, s.txn.memRead i = .ok (b i)) :
    ∃ c, checksum s = (if ((List.range' 2 16).map fun i => (b i).toNat).sum % 256 = 255 then
      .pass (s.setTxn { s.txn with csum := c }) else .fail .checksumMismatch (s.setTxn { s.txn with csum := c })) := by
  have hsum := sum_complement (b := b) (List.range' 2 16)
  simp only [List.length_range'] at hsum
  refine ⟨BitVec.ofNat 8 (((List.range' 2 16).map fun i => 256 - (b i).toNat).sum % 256), ?_⟩
  simp only [checksum, csumAcc_eq h, andThen_pass, csumCheck, setTxn_txn, csumExpect, BitVec.toNat_ofNat]
  split <;> split <;> first | rfl | (exfalso; omega)

/-! ### The field decoder -/

/-- The high nibble in integers (R13). -/
theorem hi_toNat (b : Byte) : (hi b).toNat = b.toNat / 16 := by
  have := b.isLt
  simp [hi, BitVec.extractLsb'_toNat, Nat.shiftRight_eq_div_pow]
  omega

/-- The low nibble in integers (R13). -/
theorem lo_toNat (b : Byte) : (lo b).toNat = b.toNat % 16 := by
  simp [lo, BitVec.extractLsb'_toNat]

/-- The scaled wind values of a state whose raw values are in range (R81). -/
theorem windScale_eq {s : State} (hg : s.txn.gustRaw.toNat ≤ 2565) (hs : s.txn.speedRaw.toNat ≤ 2565) :
    windScale s = .pass (s.setTxn { s.txn with
      gustCkmh := BitVec.ofNat 17 (s.txn.gustRaw.toNat * 36)
      speedCkmh := BitVec.ofNat 17 (s.txn.speedRaw.toNat * 36) }) := by
  have h1 : fit 17 ((s.txn.gustRaw.toNat : Int) * 36) = BitVec.ofNat 17 (s.txn.gustRaw.toNat * 36) := by
    exact_mod_cast fit_of_lt (w := 17) (n := s.txn.gustRaw.toNat * 36) (by omega)
  have h2 : fit 17 ((s.txn.speedRaw.toNat : Int) * 36) = BitVec.ofNat 17 (s.txn.speedRaw.toNat * 36) := by
    exact_mod_cast fit_of_lt (w := 17) (n := s.txn.speedRaw.toNat * 36) (by omega)
  simp only [windScale, windScaleFactor, Nat.cast_ofNat, h1, h2]

/-- Everything WIND_SCALE can do, in any state (R81). -/
theorem windScale_spec (s : State) :
    ∃ g v : BitVec 17, (s.txn.gustRaw.toNat ≤ 3640 → g.toNat = s.txn.gustRaw.toNat * 36) ∧
      (s.txn.speedRaw.toNat ≤ 3640 → v.toNat = s.txn.speedRaw.toNat * 36) ∧
      windScale s = .pass (s.setTxn { s.txn with gustCkmh := g, speedCkmh := v }) := by
  have hfit : ∀ n : Nat, n ≤ 3640 → (fit 17 ((n : Int) * windScaleFactor)).toNat = n * 36 := fun n h => by
    have e : (n : Int) * windScaleFactor = ((n * 36 : Nat) : Int) := by simp [windScaleFactor]
    rw [e]
    exact fit_toNat (by omega)
  exact ⟨_, _, hfit _, hfit _, rfl⟩

/-- The field decoder over readable bytes 7 to 14: it passes, it writes the variant's fields, and it leaves the
outputs, the ports and the payload buffer as they are (R70, R73 to R81). -/
theorem fieldDecoder_spec {s : State} {b : Nat → Byte} (h : ∀ i, 7 ≤ i → i ≤ 14 → s.txn.memRead i = .ok (b i)) :
    ∃ u, fieldDecoder s = .pass (s.setTxn u) ∧ u.pb = s.txn.pb ∧ u.pbSpec = s.txn.pbSpec ∧
      u.sel = (if b 12 = 0xFF#8 then 1#1 else 0#1) ∧
      u.gustCkmh.toNat = (inv8 (b 7) * 10 + inv4 (hi (b 8))) * 36 ∧
      u.speedCkmh.toNat = (inv8 (b 9) * 10 + inv4 (lo (b 8))) * 36 ∧
      u.wdirRaw.toNat = digit (hi (b 10)) * 100 + digit (lo (b 10)) * 10 + digit (hi (b 11)) ∧
      (b 12 = 0xFF#8 → u.rainRaw.toNat =
        inv4 (hi (b 13)) * 1000 + inv4 (lo (b 13)) * 100 + inv4 (hi (b 14)) * 10 + inv4 (lo (b 14))) ∧
      (b 12 ≠ 0xFF#8 →
        u.tempCorr =
          BitVec.ofInt 12 (correctedTemp (digit (hi (b 12)) * 100 + digit (lo (b 12)) * 10 + digit (hi (b 13)))) ∧
        u.humRaw.toNat = digit (lo (b 14)) + digit (hi (b 14)) * 10) := by
  have hb : ∀ i, (b i).toNat < 256 := fun i => (b i).isLt
  have hn : ∀ n : Nibble, n.toNat < 16 := fun n => n.isLt
  have h12 := h 12 (by decide) (by decide)
  have h13 := h 13 (by decide) (by decide)
  have h14 := h 14 (by decide) (by decide)
  have hgust : (BitVec.ofNat 12 (inv8 (b 7) * 10 + inv4 (hi (b 8)))).toNat = inv8 (b 7) * 10 + inv4 (hi (b 8)) := by
    rw [BitVec.toNat_ofNat]; simp only [inv8, inv4]; omega
  have hspeed : (BitVec.ofNat 12 (inv8 (b 9) * 10 + inv4 (lo (b 8)))).toNat =
      inv8 (b 9) * 10 + inv4 (lo (b 8)) := by
    rw [BitVec.toNat_ofNat]; simp only [inv8, inv4]; omega
  have hdir : (BitVec.ofNat 11 (digit (hi (b 10)) * 100 + digit (lo (b 10)) * 10 + digit (hi (b 11)))).toNat =
      digit (hi (b 10)) * 100 + digit (lo (b 10)) * 10 + digit (hi (b 11)) := by
    have := hn (hi (b 10)); have := hn (lo (b 10)); have := hn (hi (b 11))
    rw [BitVec.toNat_ofNat]; simp only [digit]; omega
  have hgle : inv8 (b 7) * 10 + inv4 (hi (b 8)) ≤ 2565 := by simp only [inv8, inv4]; omega
  have hsle : inv8 (b 9) * 10 + inv4 (lo (b 8)) ≤ 2565 := by simp only [inv8, inv4]; omega
  obtain ⟨s1, hs1⟩ : ∃ s1, s1 = s.setTxn { s.txn with sel := if b 12 = sentinel then variantRainOnly else variantFull } :=
    ⟨_, rfl⟩
  have e1 : varsel s = .pass s1 := hs1 ▸ readPb_ok h12 _
  obtain ⟨s2, hs2⟩ : ∃ s2, s2 = s1.setTxn { s1.txn with
      gustRaw := BitVec.ofNat 12 (inv8 (b 7) * 10 + inv4 (hi (b 8))) } := ⟨_, rfl⟩
  have e2 : gustDec s1 = .pass s2 := by
    rw [gustDec, readPb_ok (b := b 7) (hs1 ▸ h 7 (by decide) (by decide)),
      readPb_ok (b := b 8) (hs1 ▸ h 8 (by decide) (by decide)), hs2]
  obtain ⟨s3, hs3⟩ : ∃ s3, s3 = s2.setTxn { s2.txn with
      speedRaw := BitVec.ofNat 12 (inv8 (b 9) * 10 + inv4 (lo (b 8))) } := ⟨_, rfl⟩
  have e3 : speedDec s2 = .pass s3 := by
    rw [speedDec, readPb_ok (b := b 9) (hs2 ▸ hs1 ▸ h 9 (by decide) (by decide)),
      readPb_ok (b := b 8) (hs2 ▸ hs1 ▸ h 8 (by decide) (by decide)), hs3]
  obtain ⟨s4, hs4⟩ : ∃ s4, s4 = s3.setTxn { s3.txn with
      wdirRaw := BitVec.ofNat 11 (digit (hi (b 10)) * 100 + digit (lo (b 10)) * 10 + digit (hi (b 11))) } := ⟨_, rfl⟩
  have e4 : wdirDec s3 = .pass s4 := by
    rw [wdirDec, readPb_ok (b := b 10) (hs3 ▸ hs2 ▸ hs1 ▸ h 10 (by decide) (by decide)),
      readPb_ok (b := b 11) (hs3 ▸ hs2 ▸ hs1 ▸ h 11 (by decide) (by decide)), hs4]
  have h4pb : ∀ i, s4.txn.memRead i = s.txn.memRead i := fun i => by rw [hs4, hs3, hs2, hs1]; rfl
  have h4sel : s4.txn.sel = if b 12 = sentinel then variantRainOnly else variantFull := by
    rw [hs4, hs3, hs2, hs1]; rfl
  have h4gust : s4.txn.gustRaw.toNat = inv8 (b 7) * 10 + inv4 (hi (b 8)) := by rw [hs4, hs3, hs2, hs1]; exact hgust
  have h4speed : s4.txn.speedRaw.toNat = inv8 (b 9) * 10 + inv4 (lo (b 8)) := by
    rw [hs4, hs3, hs2, hs1]; exact hspeed
  have h4dir : s4.txn.wdirRaw.toNat = digit (hi (b 10)) * 100 + digit (lo (b 10)) * 10 + digit (hi (b 11)) := by
    rw [hs4, hs3, hs2, hs1]; exact hdir
  have h4set : ∀ u, s4.setTxn u = s.setTxn u := fun u => by rw [hs4, hs3, hs2, hs1]; rfl
  have h4mem : s4.txn.pb = s.txn.pb ∧ s4.txn.pbSpec = s.txn.pbSpec := by rw [hs4, hs3, hs2, hs1]; exact ⟨rfl, rfl⟩
  clear hs4 hs3 hs2 hs1
  have e5 : ∃ u, variantFields s4 = .pass (s4.setTxn u) ∧ u.pb = s4.txn.pb ∧ u.pbSpec = s4.txn.pbSpec ∧
      u.sel = s4.txn.sel ∧ u.gustRaw = s4.txn.gustRaw ∧ u.speedRaw = s4.txn.speedRaw ∧ u.wdirRaw = s4.txn.wdirRaw ∧
      (b 12 = 0xFF#8 → u.rainRaw.toNat =
        inv4 (hi (b 13)) * 1000 + inv4 (lo (b 13)) * 100 + inv4 (hi (b 14)) * 10 + inv4 (lo (b 14))) ∧
      (b 12 ≠ 0xFF#8 →
        u.tempCorr =
          BitVec.ofInt 12 (correctedTemp (digit (hi (b 12)) * 100 + digit (lo (b 12)) * 10 + digit (hi (b 13)))) ∧
        u.humRaw.toNat = digit (lo (b 14)) + digit (hi (b 14)) * 10) := by
    by_cases hff : b 12 = 0xFF#8
    · refine ⟨{ s4.txn with
          rainRaw := BitVec.ofNat 16
            (inv4 (hi (b 13)) * 1000 + inv4 (lo (b 13)) * 100 + inv4 (hi (b 14)) * 10 + inv4 (lo (b 14))) }, ?_, ?_⟩
      · rw [variantFields, h4sel, if_pos (by rw [if_pos (by rw [hff]; rfl)]), rainDec,
          h4sel, if_pos (by rw [if_pos (by rw [hff]; rfl)]), readPb_ok (b := b 13) (by rw [h4pb]; exact h13),
          readPb_ok (b := b 14) (by rw [h4pb]; exact h14)]
      · refine ⟨rfl, rfl, rfl, rfl, rfl, rfl, fun _ => ?_, fun hc => absurd hff hc⟩
        simp only [BitVec.toNat_ofNat, inv4]; omega
    · have hsel : s4.txn.sel = variantFull := by rw [h4sel, if_neg (by simpa [sentinel] using hff)]
      have h1 := hn (hi (b 12)); have h2 := hn (lo (b 12)); have h3 := hn (hi (b 13))
      have h4 := hn (lo (b 14)); have h5 := hn (hi (b 14))
      obtain ⟨s5, hs5⟩ : ∃ s5, s5 = s4.setTxn { s4.txn with
          tempRaw := BitVec.ofNat 11 (digit (hi (b 12)) * 100 + digit (lo (b 12)) * 10 + digit (hi (b 13))) } :=
        ⟨_, rfl⟩
      have e5 : tempDec s4 = .pass s5 := by
        rw [tempDec, if_pos hsel, readPb_ok (b := b 12) (by rw [h4pb]; exact h12),
          readPb_ok (b := b 13) (by rw [h4pb]; exact h13), hs5]
      obtain ⟨s6, hs6⟩ : ∃ s6, s6 = s5.setTxn { s5.txn with
          tempCorr := BitVec.ofInt 12 (correctedTemp s5.txn.tempRaw.toNat) } := ⟨_, rfl⟩
      have e6 : tempSign s5 = .pass s6 := by
        rw [tempSign, if_pos (by rw [hs5]; exact hsel), hs6]
      have h6 : s6.txn.memRead 14 = .ok (b 14) := by
        rw [hs6, hs5]; exact (h4pb 14).trans h14
      refine ⟨{ s6.txn with humRaw := BitVec.ofNat 8 (digit (lo (b 14)) + digit (hi (b 14)) * 10) }, ?_,
        by rw [hs6, hs5]; rfl, by rw [hs6, hs5]; rfl, by rw [hs6, hs5]; rfl, by rw [hs6, hs5]; rfl,
        by rw [hs6, hs5]; rfl, by rw [hs6, hs5]; rfl, fun hc => absurd hc hff, fun _ => ⟨?_, ?_⟩⟩
      · rw [variantFields, hsel, if_neg (by decide), e5, andThen_pass, e6, andThen_pass, humDec,
          if_pos (by rw [hs6, hs5]; exact hsel), readPb_ok h6, hs6, hs5]
        rfl
      · rw [hs6, hs5]
        simp only [setTxn_txn, BitVec.toNat_ofNat, digit]
        rw [Nat.mod_eq_of_lt (by omega)]
      · simp only [BitVec.toNat_ofNat, digit]; omega
  obtain ⟨u, e5, hpb, hspec, hsel, hg, hsp, hd, hrain, hfull⟩ := e5
  refine ⟨{ u with gustCkmh := BitVec.ofNat 17 (u.gustRaw.toNat * 36)
                   speedCkmh := BitVec.ofNat 17 (u.speedRaw.toNat * 36) }, ?_, ?_, ?_, ?_, ?_, ?_, ?_, hrain, hfull⟩
  · rw [fieldDecoder, e1, andThen_pass, e2, andThen_pass, e3, andThen_pass, e4, andThen_pass, e5, andThen_pass,
      windScale_eq (by rw [setTxn_txn, hg, h4gust]; exact hgle) (by rw [setTxn_txn, hsp, h4speed]; exact hsle),
      setTxn_txn, setTxn_setTxn, h4set]
  · exact hpb.trans h4mem.1
  · exact hspec.trans h4mem.2
  · simp only [hsel, h4sel]; rfl
  · simp only [hg, h4gust, BitVec.toNat_ofNat]; omega
  · simp only [hsp, h4speed, BitVec.toNat_ofNat]; omega
  · simp only [hd, h4dir]

end Sys2Proof.Machine
end

