-- ==== Sys2Proof/Laws/Transaction.lean ====
section
/-! SUPPORT. Everything a transaction can do, said once: the one inversion lemma from which the properties of DECODE
follow. -/

namespace Sys2Proof.Machine

/-- An empty payload buffer is good. -/
theorem beginTxn_good (s : State) : s.beginTxn.txn.PbGood := by
  refine ⟨⟨List.Pairwise.nil, ?_⟩, ⟨List.Pairwise.nil, ?_⟩, ?_, ?_⟩ <;> intro c hc <;> cases hc

/-- A payload byte of a frame is below 256. -/
theorem payloadByte_lt (f : Frame) (k i : Nat) : f.payloadByte k i < 256 := byteAt_lt f _

/-- A payload byte as the value of eight bits is itself. -/
theorem payloadByte_toNat (f : Frame) (k i : Nat) :
    (BitVec.ofNat 8 (f.payloadByte k i)).toNat = f.payloadByte k i := by
  rw [BitVec.toNat_ofNat]
  exact Nat.mod_eq_of_lt (payloadByte_lt f k i)

/-- The fields a successful transaction has decoded from its frame (R73 to R81). -/
structure Txn.Decoded (u : Txn) (f : Frame) (k : Nat) : Prop where
  sel : u.sel = if f.payloadByte k 12 = 0xFF then 1#1 else 0#1
  gust : u.gustCkmh.toNat = f.rawGust k * 36
  speed : u.speedCkmh.toNat = f.rawSpeed k * 36
  dir : u.wdirRaw.toNat = f.rawDir k
  rain : f.payloadByte k 12 = 0xFF → u.rainRaw.toNat = f.rawRain k
  temp : f.payloadByte k 12 ≠ 0xFF → u.tempCorr = BitVec.ofInt 12 (correctedTemp (f.rawTemp k))
  hum : f.payloadByte k 12 ≠ 0xFF → u.humRaw.toNat = f.rawHum k

/-- Everything a transaction can do (R89, R90, R97): it never stops with a fault; it raises the first failure
whose condition the frame meets, or it passes with the frame's fields decoded. In each case it has changed
transaction-local values only, and the payload buffer is good. -/
theorem transaction_spec (s : State) :
    (¬ s.ports.frame.ShapeOk ∧ transaction s = .fail .frameLengthOutOfRange s.beginTxn) ∨
    (s.ports.frame.ShapeOk ∧ (∀ j, s.ports.frame.MarkerAt j → s.ports.frame.len.toNat ≤ j + 32) ∧
      ∃ u, u.PbGood ∧ transaction s = .fail .preambleNotFound (s.setTxn u)) ∨
    (∃ k, s.ports.frame.ShapeOk ∧ s.ports.frame.FirstMarker k ∧ k + 32 < s.ports.frame.len.toNat ∧
      s.ports.frame.len.toNat - (k + 32) < 144 ∧
      ∃ u, u.PbGood ∧ transaction s = .fail .payloadTooShort (s.setTxn u)) ∨
    (∃ k, s.ports.frame.Extractable k ∧ s.ports.frame.spanSum k % 256 ≠ 255 ∧
      ∃ u, u.PbGood ∧ transaction s = .fail .checksumMismatch (s.setTxn u)) ∨
    ∃ k, s.ports.frame.Extractable k ∧ s.ports.frame.spanSum k % 256 = 255 ∧
      ∃ u, u.PbGood ∧ transaction s = .pass (s.setTxn u) ∧ u.Decoded s.ports.frame k := by
  have hset : ∀ u, s.beginTxn.setTxn u = s.setTxn u := fun _ => rfl
  rcases frontEnd_spec (beginTxn_good s) with ⟨h, e⟩ | ⟨h, hno, u, hu, e⟩ | ⟨k, h, hk, hlt, h144, u, hu, e⟩ |
      ⟨k, hext, u, hu, e, -, -, -, hnb, hread⟩
  · exact .inl ⟨h, by rw [transaction, e]; rfl⟩
  · exact .inr (.inl ⟨h, hno, u, hu, by rw [transaction, e, hset]; rfl⟩)
  · exact .inr (.inr (.inl ⟨k, h, hk, hlt, h144, u, hu, by rw [transaction, e, hset]; rfl⟩))
  · right; right; right
    have hf : s.beginTxn.ports.frame = s.ports.frame := rfl
    rw [hf] at hext hread hnb
    have hread' : ∀ i < 18, u.memRead i = .ok (BitVec.ofNat 8 (s.ports.frame.payloadByte k i)) := fun i hi =>
      hread i (by have := hext.2.2; omega)
    have hc := checksum_spec (s := s.beginTxn.setTxn u) (b := fun i => BitVec.ofNat 8 (s.ports.frame.payloadByte k i))
      (fun i hi => hread' i (by have := List.mem_range'_1.1 hi; omega))
    obtain ⟨c, hc⟩ := hc
    have hsum : ((List.range' 2 16).map fun i => (BitVec.ofNat 8 (s.ports.frame.payloadByte k i)).toNat).sum =
        s.ports.frame.spanSum k := by
      simp only [payloadByte_toNat, Frame.spanSum]
    rw [hsum] at hc
    by_cases h255 : s.ports.frame.spanSum k % 256 = 255
    · right
      rw [if_pos h255] at hc
      obtain ⟨v, hv, hpb, hpbs, hsel, hg, hsp, hd, hrain, hfull⟩ :=
        fieldDecoder_spec (s := (s.beginTxn.setTxn u).setTxn { u with csum := c })
          (b := fun i => BitVec.ofNat 8 (s.ports.frame.payloadByte k i))
          (fun i _ hi => hread' i (by omega))
      have hff : BitVec.ofNat 8 (s.ports.frame.payloadByte k 12) = 0xFF#8 ↔ s.ports.frame.payloadByte k 12 = 0xFF := by
        have := payloadByte_toNat s.ports.frame k 12
        constructor
        · intro h; rw [h] at this; exact this.symm
        · intro h; rw [h]
      refine ⟨k, hext, h255, v, ?_, ?_, ?_⟩
      · unfold Txn.PbGood at hu ⊢
        rw [hpb, hpbs]
        exact hu
      · rw [transaction, e, andThen_pass, hc, andThen_pass]
        exact hv
      · simp only [inv8, inv4, digit, hi_toNat, lo_toNat, payloadByte_toNat] at hg hsp hd hrain hfull
        refine ⟨?_, hg, hsp, hd, fun h => hrain (hff.2 h), fun h => (hfull fun h' => h (hff.1 h')).1,
          fun h => (hfull fun h' => h (hff.1 h')).2⟩
        rw [hsel]
        by_cases h : s.ports.frame.payloadByte k 12 = 0xFF
        · rw [if_pos (hff.2 h), if_pos h]
        · rw [if_neg fun h' => h (hff.1 h'), if_neg h]
    · left
      rw [if_neg h255] at hc
      exact ⟨k, hext, h255, { u with csum := c }, hu, by rw [transaction, e, andThen_pass, hc]; rfl⟩

/-- What a successful commit writes (R83, R89): the record of the variant and `STATUS = 1`, nothing else. -/
theorem commitOk_eq (s : State) : s.commitOk = { s with out :=
    if s.txn.sel = 1#1 then
      ⟨1, 1, 0x1F1#9, 0, 0, s.txn.gustCkmh, s.txn.speedCkmh, s.txn.wdirRaw, s.txn.rainRaw⟩
    else ⟨1, 0, 0x17D#9, s.txn.tempCorr, s.txn.humRaw, s.txn.gustCkmh, s.txn.speedCkmh, s.txn.wdirRaw, 0⟩ } := by
  have h : ∀ b : Bit, b = 0#1 ∨ b = 1#1 := by decide
  rcases h s.txn.sel with h | h
  · simp [State.commitOk, State.routeRecord, h, variantFull, Txn.recordFull, State.setOut, writePresent, presentFull,
      presentWired, statusOk]
  · simp [State.commitOk, State.routeRecord, h, variantFull, Txn.recordRainOnly, State.setOut, writePresent,
      presentRainOnly, presentWired, statusOk, variantRainOnly]

/-- Everything DECODE can do (R89, R97): it gives a next state in which transaction-local values and output
registers have changed; the outputs are those of the first failure of the frame, or its record. -/
theorem execDecode_spec (s : State) : ∃ (u : Txn) (o : Outputs), u.PbGood ∧
    execDecode s = .next { s with txn := u, out := o } ∧
    ((¬ s.ports.frame.ShapeOk ∧ o = ⟨2, 0, 0, 0, 0, 0, 0, 0, 0⟩) ∨
     (s.ports.frame.ShapeOk ∧ (∀ j, s.ports.frame.MarkerAt j → s.ports.frame.len.toNat ≤ j + 32) ∧
      o = ⟨3, 0, 0, 0, 0, 0, 0, 0, 0⟩) ∨
     (∃ k, s.ports.frame.ShapeOk ∧ s.ports.frame.FirstMarker k ∧ k + 32 < s.ports.frame.len.toNat ∧
      s.ports.frame.len.toNat - (k + 32) < 144 ∧ o = ⟨4, 0, 0, 0, 0, 0, 0, 0, 0⟩) ∨
     (∃ k, s.ports.frame.Extractable k ∧ s.ports.frame.spanSum k % 256 ≠ 255 ∧
      o = ⟨5, 0, 0, 0, 0, 0, 0, 0, 0⟩) ∨
     ∃ k, s.ports.frame.Extractable k ∧ s.ports.frame.spanSum k % 256 = 255 ∧ u.Decoded s.ports.frame k ∧
      o = if s.ports.frame.payloadByte k 12 = 255 then
          ⟨1, 1, 0x1F1#9, 0, 0, u.gustCkmh, u.speedCkmh, u.wdirRaw, u.rainRaw⟩
        else ⟨1, 0, 0x17D#9, u.tempCorr, u.humRaw, u.gustCkmh, u.speedCkmh, u.wdirRaw, 0⟩) := by
  rcases transaction_spec s with ⟨h, e⟩ | ⟨h, h2, u, hu, e⟩ | ⟨k, h1, h2, h3, h4, u, hu, e⟩ |
      ⟨k, h1, h2, u, hu, e⟩ | ⟨k, h1, h2, u, hu, e, hd⟩
  · exact ⟨_, _, beginTxn_good s, by rw [execDecode, e, Stage.commit, takeFailure_eq]; rfl, .inl ⟨h, rfl⟩⟩
  · exact ⟨_, _, hu, by rw [execDecode, e, Stage.commit, takeFailure_eq]; rfl, .inr (.inl ⟨h, h2, rfl⟩)⟩
  · exact ⟨_, _, hu, by rw [execDecode, e, Stage.commit, takeFailure_eq]; rfl,
      .inr (.inr (.inl ⟨k, h1, h2, h3, h4, rfl⟩))⟩
  · exact ⟨_, _, hu, by rw [execDecode, e, Stage.commit, takeFailure_eq]; rfl,
      .inr (.inr (.inr (.inl ⟨k, h1, h2, rfl⟩)))⟩
  · refine ⟨u, _, hu, ?_, .inr (.inr (.inr (.inr ⟨k, h1, h2, hd, rfl⟩)))⟩
    rw [execDecode, e, Stage.commit, commitOk_eq, setTxn_txn, hd.sel]
    by_cases h : s.ports.frame.payloadByte k 12 = 255
    · simp only [if_pos h]; rfl
    · simp only [if_neg h]; rfl

end Sys2Proof.Machine
end

