-- ==== Sys2Proof/Tests/Slice0.lean ====
section
/-! SUPPORT. The model's own tests. Every expected value is the spec's (file 95, cited by its vector), or is counted by
hand from the rule cited. Then, for each statement with hypotheses, a state that meets them. -/

namespace Sys2Proof.Tests

set_option maxRecDepth 4000

open Sys2Proof Sys2Proof.Machine

/-! ### Helpers -/

/-- The output registers of an outcome that is a next state. -/
def outOf (o : Host.Outcome State Fault Refusal) : Option Outputs :=
  match o with
  | .next s => some s.out
  | .fault _ => none
  | .refused _ => none

/-- The transaction-local values of an outcome that is a next state. -/
def txnOf (o : Host.Outcome State Fault Refusal) : Option Txn :=
  match o with
  | .next s => some s.txn
  | .fault _ => none
  | .refused _ => none

/-- The fault of an outcome. -/
def faultOf (o : Host.Outcome State Fault Refusal) : Option Fault :=
  match o with
  | .next _ => none
  | .fault r => some r
  | .refused _ => none

/-- The refusal of an outcome. -/
def refusalOf (o : Host.Outcome State Fault Refusal) : Option Refusal :=
  match o with
  | .next _ => none
  | .fault _ => none
  | .refused r => some r

/-- The next state of an outcome, or the state given. -/
def nextOr (d : State) (o : Host.Outcome State Fault Refusal) : State :=
  match o with
  | .next s => s
  | .fault _ => d
  | .refused _ => d

/-- Reset, with a frame and both strobes driven. -/
def driven (rst start : Bit) (f : Frame) : State := { State.reset with ports := ⟨rst, start, f⟩ }

/-- Reset, with a payload buffer that holds the bytes `b`. -/
def loaded (b : Nat → Byte) : State :=
  State.reset.setTxn ((List.range 20).foldl (fun t i =>
    { t with pb := Memory.write t.pb i (b i), pbSpec := Memory.write t.pbSpec i 0xFF#8 }) Txn.reset)

/-- Reset, with the payload buffer of a payload and a variant. -/
def fields (sel : Bit) (pb : BitVec 160) : State :=
  (loaded (pbByte pb)).setTxn { (loaded (pbByte pb)).txn with sel := sel }

/-- Reset, with a frame, a marker position, a payload offset and a remaining length. -/
def front (f : Frame) (k soff rem : Nat) : State :=
  { driven 0 1 f with txn := { Txn.reset with
      k := BitVec.ofNat 16 k, soff := BitVec.ofNat 16 soff, rem := BitVec.ofNat 16 rem } }

/-- P_RAIN (95, section 0.1). -/
def pRain : BitVec 160 := 0x11223344556677FDABFE2250FFFEDC0000650000#160

/-- P_FULL (95, section 0.1). -/
def pFull : BitVec 160 := 0x11223344556677FDABFE22502340560000850000#160

/-- P_NEG (95, section 0.1). -/
def pNeg : BitVec 160 := 0x11223344556677FDABFE22509500800000290000#160

/-- The output registers of P_RAIN (95, section 0.1). -/
def rainOut : Outputs := ⟨1, 1, 0x1F1, 0, 0, 900, 504, 225, 123⟩

/-- The output registers of P_FULL (95, section 0.1). -/
def fullOut : Outputs := ⟨1, 0, 0x17D, 234, 56, 900, 504, 225, 0⟩

/-- The output registers of a failure (R86, R98). -/
def failOut (code : BitVec 3) : Outputs := ⟨code, 0, 0, 0, 0, 0, 0, 0, 0⟩

/-- Decoded field values of a variant. -/
def decodedTxn (sel : Bit) (rain : BitVec 16) : Txn :=
  { Txn.reset with
    sel := sel
    tempCorr := 234
    humRaw := 56
    gustCkmh := 900
    speedCkmh := 504
    wdirRaw := 225
    rainRaw := rain }

/-- The state right after P_RAIN has decoded, with other port values. -/
def afterRain (p : Ports) : State :=
  { nextOr State.reset (exec .decode (driven 0 1 (Frame.ofPayload 0 pRain))) with ports := p }

/-! ### Well-formedness and decoding -/

theorem test_wellFormed_commands : Instr.decode.wellFormed = true ∧ Instr.nop.wellFormed = true := by decide

theorem test_wellFormed_refuses_front :
    [Instr.shapeCheck, .preambleSearch, .preOffset, .remainCheck, .extract].all (fun i => !i.wellFormed) = true := by
  decide

theorem test_wellFormed_refuses_payload :
    [Instr.csumAcc, .csumCheck, .varsel, .gustDec, .speedDec, .wdirDec, .rainDec, .tempDec, .tempSign, .humDec,
      .windScale].all (fun i => !i.wellFormed) = true := by
  decide

theorem test_wellFormed_refuses_out : [Instr.muxOk, .muxFail].all (fun i => !i.wellFormed) = true := by decide

/-- R45: `START = 1` is DECODE. -/
theorem test_decode_one : decode [0b00000001#8] = .ok (.decode, []) := by rfl

/-- R45: `START = 0` is NOP. -/
theorem test_decode_zero : decode [0b00000000#8] = .ok (.nop, []) := by rfl

theorem test_decode_rejects_two : decode [0b00000010#8] = .error (.notAStrobe 0x02#8) := by rfl

theorem test_decode_rejects_high : decode [0b10000001#8] = .error (.notAStrobe 0x81#8) := by rfl

theorem test_decode_rejects_nothing : decode [] = .error .noByte := by rfl

theorem test_tableWord : decodeTableWord 1 1 = some .decode ∧ decodeTableWord 8 1 = some .decode ∧
    decodeTableWord 8 0 = some .nop ∧ decodeTableWord 8 2 = none ∧ decodeTableWord 16 1 = none := by decide

/-- R57: `PB[12] = 0xFF` selects RAIN_DEC (P_RAIN). -/
theorem test_select_rain : selectedBy pRain .rainDec = true ∧ selectedBy pRain .tempDec = false ∧
    selectedBy pRain .tempSign = false ∧ selectedBy pRain .humDec = false := by decide

/-- R57: any other value selects TEMP_DEC, TEMP_SIGN and HUM_DEC; here V-FD-16, `PB[12] = 0x7F`. -/
theorem test_select_full : selectedBy 0x11223344556677FDABFE22507F00560000690000#160 .rainDec = false ∧
    selectedBy 0x11223344556677FDABFE22507F00560000690000#160 .tempDec = true ∧
    selectedBy 0x11223344556677FDABFE22507F00560000690000#160 .tempSign = true ∧
    selectedBy 0x11223344556677FDABFE22507F00560000690000#160 .humDec = true := by decide

/-- R57: the patterns of GUST_DEC and SPEED_DEC in the opcode table mark `PB[7]`, `PB[8]` and `PB[9]`: byte `i` is the
bits from `152 - 8 * i` up. -/
theorem test_rows_read : (Instr.gustDec.payloadRow.map (·.reads)) = some (0xFFF#160 <<< 92) ∧
    (Instr.speedDec.payloadRow.map (·.reads)) = some (0xFFF#160 <<< 80) := by decide

/-! ### Reset, NOP and steps -/

/-- V-CM-1. -/
theorem test_reset : State.reset.out = failOut 0 := by rfl

/-- V-CM-5: `RST` with `START = 1` and P_FULL on the port resets. -/
theorem test_step_reset_wins : outOf (step (afterRain ⟨1, 1, Frame.ofPayload 0 pFull⟩)) = some (failOut 0) := by rfl

/-- V-CM-3: NOP with a 2-row frame leaves the P_RAIN outputs. -/
theorem test_nop_keeps : outOf (step (afterRain ⟨0, 0, ⟨2, 192, 0⟩⟩)) = some rainOut := by decide +kernel

theorem test_nop_from_reset : outOf (exec .nop State.reset) = some (failOut 0) := by rfl

/-- V-CM-2: DECODE of V-CS-4 after a success clears the record. -/
theorem test_step_failure_clears :
    outOf (step (afterRain ⟨0, 1, Frame.ofPayload 0 0x11223344556677FDABFE2250FFFEDC0001650000#160⟩)) =
      some (failOut 5) := by rfl

/-- Section 0.1, P_RAIN in the hexadecimal notation of R46. -/
theorem test_decode_rain :
    outOf (step (driven 0 1 (Frame.ofHex 1 192 0xAAAA2DD411223344556677FDABFE2250FFFEDC0000650000))) =
      some rainOut := by decide +kernel

/-- E4g: P_FULL at `K = 3`, not byte-aligned. -/
theorem test_decode_full :
    outOf (step (driven 0 1 (Frame.ofHex 1 198 0x755545BA822446688AACCEFFB57FC44A04680AC00010A00014))) =
      some fullOut := by decide +kernel

/-- The command word 1 is DECODE; the quiet frame has no row, so its code is 2 (R60, R45). -/
theorem test_fetch_decode : outOf (step (State.reset.withFetchWord 8 1)) = some (failOut 2) := by rfl

theorem test_fetch_nop : outOf (step (State.reset.withFetchWord 8 0)) = some (failOut 0) := by rfl

/-- With nothing pending, the strobe is back at 0 in the next step and the frame stays (R58, log 3). -/
theorem test_ports_move : (nextOr State.reset (step (driven 0 1 ⟨2, 100, 5⟩))).ports = ⟨0, 0, ⟨2, 100, 5⟩⟩ := by rfl

theorem test_reserved_status :
    refusalOf (step { State.reset with out := failOut 6 }) = some .reservedStatus := by rfl

theorem test_reserved_present :
    refusalOf (step { State.reset with out := { Outputs.reset with present := 0x1FD } }) =
      some .reservedPresent := by rfl

/-! ### The front end -/

/-- V-FE-1: 159 bits are too few. -/
theorem test_shapeCheck_159 : outOf (exec .shapeCheck (driven 0 1 ⟨1, 159, 0⟩)) = some (failOut 2) := by rfl

/-- R60: 230 bits pass. -/
theorem test_shapeCheck_230 : outOf (exec .shapeCheck (driven 0 1 ⟨1, 230, 0⟩)) = some (failOut 0) := by rfl

/-- V-FE-6: the marker is at 8, not 0. -/
theorem test_search_overlap :
    ((txnOf (exec .preambleSearch
      (driven 0 1 (Frame.ofHex 1 200 0xAAAAAA2DD411223344556677FDABFE2250FFFEDC0000650000)))).map (·.k)) =
      some 8 := by rfl

/-- V-FE-2: no marker, so `K = LEN`. -/
theorem test_search_none : ((txnOf (exec .preambleSearch (driven 0 1 ⟨1, 160, 0⟩))).map (·.k)) = some 160 := by rfl

/-- V-FE-5: the marker ends with the row. -/
theorem test_preOffset_end : outOf (exec .preOffset (front ⟨1, 160, 0⟩ 128 0 0)) = some (failOut 3) := by rfl

/-- V-FE-9: `K = 54` gives `SOFF = 86`. -/
theorem test_preOffset_value :
    ((txnOf (exec .preOffset (front ⟨1, 230, 0⟩ 54 0 0))).map (·.soff)) = some 86 := by decide +kernel

/-- V-FE-7: `REM = 143` fails. -/
theorem test_remainCheck_143 : outOf (exec .remainCheck (front ⟨1, 175, 0⟩ 0 32 0)) = some (failOut 4) := by rfl

/-- V-FE-8: `REM = 144` passes. -/
theorem test_remainCheck_144 :
    ((txnOf (exec .remainCheck (front ⟨1, 176, 0⟩ 0 32 0))).map (·.rem)) = some 144 ∧
      outOf (exec .remainCheck (front ⟨1, 176, 0⟩ 0 32 0)) = some (failOut 0) := by decide +kernel

/-- V-FE-11: 150 bits are 18 whole bytes and the top 6 bits of `PB[18]`, which cannot be read; `PB[17]` is `0x65`. -/
theorem test_extract_partial :
    ((txnOf (exec .extract (front (Frame.ofHex 1 182 0xAAAA2DD411223344556677FDABFE2250FFFEDC00006500) 0 32 150))).map
      fun t => (t.nbits, t.plenBytes, t.memRead 17, t.memRead 18, Memory.read t.pbSpec 18)) =
      some (150, 18, .ok 0x65#8, .error .pbBitUnspecified, 0xFC#8) := by rfl

/-- E4g: `SOFF = 35`, `REM = 163`: `NBITS = 160` and the bytes are those of P_FULL. -/
theorem test_extract_unaligned :
    ((txnOf (exec .extract (front (Frame.ofHex 1 198 0x755545BA822446688AACCEFFB57FC44A04680AC00010A00014) 3 35 163))).map
      fun t => (t.nbits, t.plenBytes, (List.range 20).map t.memRead)) =
      some (160, 20, (List.range 20).map fun i => .ok (pbByte pFull i)) := by rfl

/-- An empty buffer cannot be read (R37, R104). -/
theorem test_unspecified_read : faultOf (exec .varsel State.reset) = some .pbBitUnspecified := by rfl

/-! ### The checksum -/

/-- V-CS-1. -/
theorem test_csumAcc_rain : ((txnOf (exec .csumAcc (loaded (pbByte pRain)))).map (·.csum)) = some 0x01 := by rfl

/-- E1a: the documented sample gives `0x95`. -/
theorem test_csumAcc_sample :
    ((txnOf (exec .csumAcc (loaded (pbByte 0xEE937FF7BFFBEF9EFEAEBFFFFF116C8008400410#160)))).map (·.csum)) =
      some 0x95 := by rfl

/-- V-CS-3: `CSUM = 0x02` fails. -/
theorem test_csumCheck_two :
    outOf (exec .csumCheck (State.reset.setTxn { Txn.reset with csum := 2 })) = some (failOut 5) := by rfl

/-- V-CS-1: `CSUM = 0x01` passes. -/
theorem test_csumCheck_one :
    outOf (exec .csumCheck (State.reset.setTxn { Txn.reset with csum := 1 })) = some (failOut 0) := by rfl

/-! ### The field decoder -/

/-- V-FD-17: `0xFE` is FULL. -/
theorem test_varsel_full :
    ((txnOf (exec .varsel (fields 1 0x11223344556677FDABFE2250FEF0560000FA0000#160))).map (·.sel)) = some 0 := by rfl

/-- P_RAIN is RAIN_ONLY. -/
theorem test_varsel_rain : ((txnOf (exec .varsel (fields 0 pRain))).map (·.sel)) = some 1 := by rfl

/-- Section 0.1: raw gust 25. -/
theorem test_gustDec : ((txnOf (exec .gustDec (fields 0 pFull))).map (·.gustRaw)) = some 25 := by rfl

/-- V-FD-2: the maximum, 2565. -/
theorem test_gustDec_max :
    ((txnOf (exec .gustDec (fields 0 0x11223344556677000000225023405600002B0000#160))).map (·.gustRaw)) =
      some 2565 := by rfl

/-- Section 0.1: raw speed 14. -/
theorem test_speedDec : ((txnOf (exec .speedDec (fields 0 pFull))).map (·.speedRaw)) = some 14 := by rfl

/-- E1: raw speed 811. -/
theorem test_speedDec_sample :
    ((txnOf (exec .speedDec (fields 1 0xEE937FF7BFFBEF9EFEAEBFFFFF116C8008D40410#160))).map (·.speedRaw)) =
      some 811 := by rfl

/-- V-FD-5: 360; the low nibble of `PB[11]` is not read. -/
theorem test_wdirDec :
    ((txnOf (exec .wdirDec (fields 0 0x11223344556677FDABFE360F2340560000B20000#160))).map (·.wdirRaw)) =
      some 360 := by rfl

/-- V-FD-8: the maximum, 1665. -/
theorem test_wdirDec_max :
    ((txnOf (exec .wdirDec (fields 0 0x11223344556677FDABFEFFF02340560000080000#160))).map (·.wdirRaw)) =
      some 1665 := by rfl

/-- Section 0.1: 123. -/
theorem test_rainDec : ((txnOf (exec .rainDec (fields 1 pRain))).map (·.rainRaw)) = some 123 := by rfl

/-- V-FD-25: 15493. -/
theorem test_rainDec_sample :
    ((txnOf (exec .rainDec (fields 1 0x11223344556677FDABFE2250FF116C0000C20000#160))).map (·.rainRaw)) =
      some 15493 := by rfl

/-- Section 0.1: 234. -/
theorem test_tempDec : ((txnOf (exec .tempDec (fields 0 pFull))).map (·.tempRaw)) = some 234 := by rfl

/-- V-FD-14: 1655. -/
theorem test_tempDec_max :
    ((txnOf (exec .tempDec (fields 0 0x11223344556677FDABFE2250FEF0560000FA0000#160))).map (·.tempRaw)) =
      some 1655 := by rfl

/-- E5: 600 is positive, 601 is -399. -/
theorem test_tempSign_threshold :
    ((txnOf (exec .tempSign (State.reset.setTxn { Txn.reset with tempRaw := 600 }))).map (·.tempCorr)) = some 0x258 ∧
    ((txnOf (exec .tempSign (State.reset.setTxn { Txn.reset with tempRaw := 601 }))).map (·.tempCorr)) =
      some 0xE71 := by decide +kernel

/-- E5: 950 is -50. -/
theorem test_tempSign_negative :
    ((txnOf (exec .tempSign (State.reset.setTxn { Txn.reset with tempRaw := 950 }))).map (·.tempCorr)) =
      some 0xFCE := by rfl

/-- Section 0.1: 56. -/
theorem test_humDec : ((txnOf (exec .humDec (fields 0 pFull))).map (·.humRaw)) = some 56 := by rfl

/-- V-FD-20: 160. -/
theorem test_humDec_digits :
    ((txnOf (exec .humDec (fields 0 0x11223344556677FDABFE22502340FA0000E10000#160))).map (·.humRaw)) =
      some 160 := by rfl

/-- Section 0.1: 25 and 14 give 900 and 504. -/
theorem test_windScale :
    ((txnOf (exec .windScale (State.reset.setTxn { Txn.reset with gustRaw := 25, speedRaw := 14 }))).map
      fun t => (t.gustCkmh, t.speedCkmh)) = some (900, 504) := by decide +kernel

/-- V-FD-2: 2565 gives 92340. -/
theorem test_windScale_max :
    ((txnOf (exec .windScale (State.reset.setTxn { Txn.reset with gustRaw := 2565, speedRaw := 2565 }))).map
      fun t => (t.gustCkmh, t.speedCkmh)) = some (92340, 92340) := by decide +kernel

/-! ### The output multiplexer -/

/-- R83: a FULL record leaves out rain, whatever `RAIN_RAW` holds. -/
theorem test_muxOk_full :
    outOf (exec .muxOk (State.reset.setTxn (decodedTxn 0 7))) = some { fullOut with status := 0 } := by rfl

/-- R83: a RAIN_ONLY record leaves out temperature and humidity. -/
theorem test_muxOk_rain :
    outOf (exec .muxOk (State.reset.setTxn (decodedTxn 1 123))) = some { rainOut with status := 0 } := by rfl

/-- R86. -/
theorem test_muxFail : outOf (exec .muxFail { State.reset with out := fullOut }) = some (failOut 1) := by rfl

/-! ### The record -/

/-- R55: the keys of a FULL and of a RAIN_ONLY record. -/
theorem test_record_keys :
    Key.all.filter fullOut.has =
      [.model, .temperatureC, .humidity, .windGust, .windSpeed, .windDirDeg, .mic] ∧
    Key.all.filter rainOut.has = [.model, .windGust, .windSpeed, .windDirDeg, .rainMm, .mic] := by decide

/-- R87: -5.0 degrees for `TEMP_DC = -50` (E5). -/
theorem test_record_temperature :
    ({ fullOut with tempDc := 0xFCE } : Outputs).value .temperatureC = some (.rational (-5)) := by decide +kernel

/-! ### Witnesses: states that meet the hypotheses of the statements -/

/-- The marker stands at offset 0 of the P_RAIN frame. -/
def rainFrame : Frame := Frame.ofPayload 0 pRain

/-- A frame with no marker (V-FE-2). -/
def blankFrame : Frame := ⟨1, 160, 0⟩

theorem test_witness_StepRunsTheIssuedCommand :
    (driven 0 1 rainFrame).reserved = none ∧ decode [(1#1 : Bit).setWidth 8] = .ok (.decode, []) ∧
    (driven 0 0 rainFrame).reserved = none ∧ decode [(0#1 : Bit).setWidth 8] = .ok (.nop, []) ∧
    exec .nop (driven 0 0 rainFrame) = .next (driven 0 0 rainFrame) ∧ (driven 0 0 rainFrame).pending = [] ∧
    exec .nop { driven 0 0 rainFrame with pending := [Ports.quiet] } =
      .next { driven 0 0 rainFrame with pending := [Ports.quiet] } := by
  exact ⟨rfl, rfl, rfl, rfl, rfl, rfl, rfl⟩

theorem test_witness_StrobeIssuesDecodeOrNop :
    (driven 0 1 blankFrame).reserved = none ∧ (driven 0 1 blankFrame).ports.rst = 0#1 ∧
    (driven 0 1 blankFrame).ports.start = 1#1 ∧ (driven 0 0 blankFrame).reserved = none ∧
    (driven 0 0 blankFrame).ports.start = 0#1 := by
  exact ⟨rfl, rfl, rfl, rfl, rfl⟩

theorem test_witness_CommandBytesRoundTrip :
    Instr.nop.wellFormed = true ∧ decode [0x01#8, 0x07#8] = .ok (.decode, [0x07#8]) ∧ 2 ≤ (0x02#8 : Byte).toNat := by
  exact ⟨rfl, rfl, by decide⟩

/-- Readable bytes: the hypothesis of the statements over a payload buffer. -/
theorem test_witness_readable :
    (∀ i < 20, (loaded (pbByte pRain)).txn.memRead i = .ok (pbByte pRain i)) ∧
    ∀ i < 20, (loaded (pbByte pFull)).txn.memRead i = .ok (pbByte pFull i) := by
  decide +kernel

theorem test_witness_SelectedRowsFollowTheVariant :
    pbByte pRain 12 = 0xFF#8 ∧ pbByte pFull 12 = 0x23#8 ∧
    ∀ i < 20, (loaded (pbByte pFull)).txn.memRead i = .ok (pbByte pFull i) := by
  exact ⟨rfl, rfl, test_witness_readable.2⟩

theorem test_witness_ResetStepClearsTheOutputs :
    (afterRain ⟨1, 1, rainFrame⟩).reserved = none ∧ (afterRain ⟨1, 1, rainFrame⟩).ports.rst = 1#1 ∧
    (afterRain ⟨1, 0, rainFrame⟩).reserved = none := by
  decide +kernel

theorem test_witness_PortsMoveOnInEveryStep :
    outOf (step (afterRain ⟨1, 1, rainFrame⟩)) = some (failOut 0) ∧ (afterRain ⟨1, 1, rainFrame⟩).pending = [] ∧
    outOf (step { afterRain ⟨0, 0, blankFrame⟩ with pending := [Ports.quiet] }) = some rainOut := by
  decide +kernel

theorem test_witness_NopLeavesTheBlockUnchanged : (afterRain Ports.quiet).reserved = none := by decide +kernel

theorem test_witness_RowBitIsDefinedBelowLen :
    rainFrame.len.toNat ≤ 230 ∧ 191 < rainFrame.len.toNat ∧ rainFrame.len.toNat ≤ 192 ∧
    (⟨1, 230, 0⟩ : Frame).len.toNat ≤ 230 ∧ 229 < (⟨1, 230, 0⟩ : Frame).len.toNat := by
  decide

theorem test_witness_PayloadBufferReadAfterWrite :
    Memory.wf (loaded (pbByte pRain)).txn.pb ∧ Memory.wf (loaded (pbByte pRain)).txn.pbSpec ∧ 19 < 20 ∧ 20 ≤ 20 := by
  decide +kernel

theorem test_witness_ShapeCheckAcceptsOneRowOf160To230 :
    (⟨1, 160, 0⟩ : Frame).ShapeOk ∧ (⟨1, 230, 0⟩ : Frame).ShapeOk ∧ (⟨2, 192, 0⟩ : Frame).rows.toNat ≠ 1 ∧
    (⟨1, 159, 0⟩ : Frame).len.toNat < 160 ∧ 230 < (⟨1, 231, 0⟩ : Frame).len.toNat := by
  decide

theorem test_witness_PreambleSearchFindsTheFirstMarker :
    rainFrame.len.toNat ≤ 230 ∧ rainFrame.MarkerAt 0 ∧ blankFrame.len.toNat ≤ 230 ∧
    ∀ j < 160, ¬ blankFrame.MarkerAt j := by
  decide +kernel

/-- The blank frame has no marker at any offset: past its length the first conjunct fails. -/
theorem test_witness_blank_has_no_marker : ∀ j, ¬ blankFrame.MarkerAt j := fun j h =>
  absurd h (test_witness_PreambleSearchFindsTheFirstMarker.2.2.2 j
    (by have : j + 32 ≤ 160 := h.1
        omega))

theorem test_witness_PreOffsetRequiresBitsAfterTheMarker :
    (front blankFrame 127 0 0).txn.k.toNat + 32 < blankFrame.len.toNat ∧
    blankFrame.len.toNat ≤ (front blankFrame 128 0 0).txn.k.toNat + 32 ∧
    (front blankFrame 65503 0 0).txn.k.toNat ≤ 65503 := by
  decide

theorem test_witness_RemainCheckRequires144Bits :
    (front blankFrame 0 16 0).txn.soff.toNat + 144 ≤ blankFrame.len.toNat ∧
    blankFrame.len.toNat < (front blankFrame 0 17 0).txn.soff.toNat + 144 ∧
    (front blankFrame 0 160 0).txn.soff.toNat ≤ blankFrame.len.toNat := by
  decide

/-- 150 bits: whole bytes, a partial byte 18, and bits beyond. -/
theorem test_witness_ExtractPacksTheBitsAfterTheMarker :
    (front ⟨1, 182, 0⟩ 0 32 150).ports.frame.len.toNat ≤ 230 ∧ Memory.wf (front ⟨1, 182, 0⟩ 0 32 150).txn.pb ∧
    Memory.wf (front ⟨1, 182, 0⟩ 0 32 150).txn.pbSpec ∧ 32 + min 150 160 ≤ 182 ∧ 17 < min 150 160 / 8 ∧
    min 150 160 / 8 = 18 ∧ 8 * 18 + 5 < min 150 160 ∧ min 150 160 ≤ 8 * 18 + 6 := by
  decide

theorem test_witness_UnextractedBytesCannotBeRead :
    (front ⟨1, 176, 0⟩ 0 32 144).ports.frame.len.toNat ≤ 230 ∧ 32 + min 144 160 ≤ 176 ∧
    8 * 17 + 8 ≤ min 144 160 ∧ min 144 160 < 8 * 18 + 8 := by
  decide

theorem test_witness_span :
    ∀ i, 2 ≤ i → i ≤ 17 → (loaded (pbByte pRain)).txn.memRead i = .ok (pbByte pRain i) := fun i _ h =>
  test_witness_readable.1 i (by omega)

theorem test_witness_CsumAccSumsTheComplements :
    ∀ i, 2 ≤ i → i ≤ 17 → (loaded (pbByte pRain)).txn.memRead i = .ok (pbByte pRain i) := test_witness_span

theorem test_witness_CsumCheckPassesOnlyOne :
    ({ Txn.reset with csum := 1 } : Txn).csum = 0x01#8 ∧ ({ Txn.reset with csum := 0 } : Txn).csum ≠ 0x01#8 := by
  decide

/-- P_RAIN sums to 255 (V-CS-1), 20 zero bytes do not (V-CS-6). -/
theorem test_witness_ChecksumPassesWhenTheSpanSumsTo255 :
    ((List.range' 2 16).map fun i => (pbByte pRain i).toNat).sum % 256 = 0xFF ∧
    ((List.range' 2 16).map fun i => (pbByte 0 i).toNat).sum % 256 ≠ 0xFF ∧
    ∀ i < 20, (loaded (pbByte 0)).txn.memRead i = .ok (pbByte 0 i) := by
  decide +kernel

/-- V-CS-5: bit 0 of `PB[5]` of P_RAIN flipped. -/
def flipped (n : Nat) : Byte := if n = 5 then pbByte pRain n ^^^ (1#8 <<< 0) else pbByte pRain n

theorem test_witness_flipped_readable : ∀ i < 20, (loaded flipped).txn.memRead i = .ok (flipped i) := by
  decide +kernel

theorem test_witness_ChecksumDetectsASingleFlip :
    (∀ n, 2 ≤ n → n ≤ 17 → (loaded flipped).txn.memRead n = .ok (flipped n)) ∧
    flipped 5 = pbByte pRain 5 ^^^ (1#8 <<< 0) ∧ (∀ n, n ≠ 5 → flipped n = pbByte pRain n) ∧ flipped 5 = 0x67#8 := by
  refine ⟨fun n _ h => test_witness_flipped_readable n (by omega), rfl, fun n h => ?_, rfl⟩
  rw [flipped, if_neg h]

/-- V-CS-9: `PB[5]` and `PB[6]` of P_RAIN swapped. -/
theorem test_witness_ChecksumIgnoresTheOrderOfTheSpan :
    (∀ i < 20, (loaded (pbByte 0x11223344557766FDABFE2250FFFEDC0000650000#160)).txn.memRead i =
      .ok (pbByte 0x11223344557766FDABFE2250FFFEDC0000650000#160 i)) ∧
    ((List.range' 2 16).map (pbByte pRain)).Perm
      ((List.range' 2 16).map (pbByte 0x11223344557766FDABFE2250FFFEDC0000650000#160)) := by
  decide +kernel

theorem test_witness_VarselTestsTheSentinel :
    (loaded (pbByte pRain)).txn.memRead 12 = .ok 0xFF#8 ∧ (loaded (pbByte pFull)).txn.memRead 12 = .ok 0x23#8 := by
  decide +kernel

/-- V-FD-2: `PB[7]`, `PB[8]`, `PB[9]` are 0, at the top of both ranges. -/
theorem test_witness_GustDecValue :
    (loaded (pbByte 0x11223344556677000000225023405600002B0000#160)).txn.memRead 7 = .ok 0#8 ∧
    (loaded (pbByte 0x11223344556677000000225023405600002B0000#160)).txn.memRead 8 = .ok 0#8 := by
  decide +kernel

theorem test_witness_SpeedDecValue :
    (loaded (pbByte 0x11223344556677000000225023405600002B0000#160)).txn.memRead 8 = .ok 0#8 ∧
    (loaded (pbByte 0x11223344556677000000225023405600002B0000#160)).txn.memRead 9 = .ok 0#8 := by
  decide +kernel

/-- V-FD-8: the greatest digits. -/
theorem test_witness_WdirDecValue :
    (loaded (pbByte 0x11223344556677FDABFEFFF02340560000080000#160)).txn.memRead 10 = .ok 0xFF#8 ∧
    (loaded (pbByte 0x11223344556677FDABFEFFF02340560000080000#160)).txn.memRead 11 = .ok 0xF0#8 := by
  decide +kernel

theorem test_witness_RainDecValue :
    (fields 1 pRain).txn.sel = 1#1 ∧ (fields 1 pRain).txn.memRead 13 = .ok 0xFE#8 ∧
    (fields 1 pRain).txn.memRead 14 = .ok 0xDC#8 ∧ (fields 0 pRain).txn.sel = 0#1 := by
  decide +kernel

/-- V-FD-14: `PB[12] = 0xFE`, the greatest value that is not the sentinel. -/
theorem test_witness_TempDecValue :
    (fields 0 0x11223344556677FDABFE2250FEF0560000FA0000#160).txn.sel = 0#1 ∧
    (fields 0 0x11223344556677FDABFE2250FEF0560000FA0000#160).txn.memRead 12 = .ok 0xFE#8 ∧
    (fields 0 0x11223344556677FDABFE2250FEF0560000FA0000#160).txn.memRead 13 = .ok 0xF0#8 ∧
    (0xFE#8 : Byte) ≠ 0xFF#8 ∧ (fields 1 pFull).txn.sel = 1#1 := by
  decide +kernel

theorem test_witness_TempSignValue :
    ({ Txn.reset with tempRaw := 600 } : Txn).sel = 0#1 ∧ ({ Txn.reset with tempRaw := 601 } : Txn).sel = 0#1 ∧
    ({ Txn.reset with tempRaw := 1655 } : Txn).tempRaw.toNat ≤ 1655 ∧ (fields 1 pFull).txn.sel = 1#1 := by
  decide

theorem test_witness_HumDecValue :
    (fields 0 pFull).txn.sel = 0#1 ∧ (fields 0 pFull).txn.memRead 14 = .ok 0x56#8 ∧ (fields 1 pFull).txn.sel = 1#1 := by
  decide +kernel

theorem test_witness_WindScaleMultipliesBy36 :
    ({ Txn.reset with gustRaw := 2565 } : Txn).gustRaw.toNat ≤ 3640 ∧
    ({ Txn.reset with speedRaw := 3640 } : Txn).speedRaw.toNat ≤ 3640 := by
  decide

/-- P_RAIN and V-FD-26 have the same bytes 7 to 14, and other bytes elsewhere. -/
theorem test_witness_FieldDecoderReadsOnlyBytes7To14 :
    (∀ i < 15, 7 ≤ i → (loaded (pbByte pRain)).txn.memRead i = .ok (pbByte pRain i)) ∧
    (∀ i < 15, 7 ≤ i → (loaded (pbByte 0x00FF3344556677FDABFE2250FFFEDC120053ABCD#160)).txn.memRead i =
      .ok (pbByte pRain i)) ∧
    pbByte pRain 0 ≠ pbByte 0x00FF3344556677FDABFE2250FFFEDC120053ABCD#160 0 := by
  decide +kernel

theorem test_witness_MuxOkWritesTheRecord :
    (State.reset.setTxn (decodedTxn 0 7)).txn.sel = 0#1 ∧ (State.reset.setTxn (decodedTxn 1 7)).txn.sel = 1#1 := by
  decide

/-- One frame for each status code: V-FE-1, V-FE-5, V-FE-7, 20 zero bytes (V-CS-6), P_RAIN. -/
theorem test_witness_DecodeReportsTheFirstFailure :
    ¬ (⟨1, 159, 0⟩ : Frame).ShapeOk ∧ (Frame.ofHex 1 160 0xAAAA2DD4).ShapeOk ∧
    (∀ j < 160, (Frame.ofHex 1 160 0xAAAA2DD4).MarkerAt j → 160 ≤ j + 32) ∧
    (Frame.ofHex 1 175 0xAAAA2DD411223344556677FDABFE2250FFFEDC000064).ShapeOk ∧
    (Frame.ofHex 1 175 0xAAAA2DD411223344556677FDABFE2250FFFEDC000064).FirstMarker 0 ∧ 0 + 32 < 175 ∧
    175 < 0 + 32 + 144 ∧
    (Frame.ofPayload 0 0).ShapeOk ∧ (Frame.ofPayload 0 0).FirstMarker 0 ∧ (Frame.ofPayload 0 0).spanSum 0 % 256 ≠ 0xFF ∧
    rainFrame.ShapeOk ∧ rainFrame.FirstMarker 0 ∧ 0 + 32 + 144 ≤ rainFrame.len.toNat ∧
    rainFrame.spanSum 0 % 256 = 0xFF := by
  decide +kernel

/-- V-FE-8: `LEN = k + 176`, the least length that passes, with P_RAIN's first 144 bits. -/
theorem test_witness_DecodeReportsTheFirstFailure_176 :
    (Frame.ofHex 1 176 0xAAAA2DD411223344556677FDABFE2250FFFEDC000065).ShapeOk ∧
    (Frame.ofHex 1 176 0xAAAA2DD411223344556677FDABFE2250FFFEDC000065).FirstMarker 0 ∧ 0 + 32 + 144 ≤ 176 ∧
    (Frame.ofHex 1 176 0xAAAA2DD411223344556677FDABFE2250FFFEDC000065).spanSum 0 % 256 = 0xFF := by
  decide +kernel

theorem test_witness_FailedDecodeLeavesOnlyItsCode :
    outOf (exec .decode (driven 0 1 blankFrame)) = some (failOut 3) ∧ (failOut 3).status ≠ 1 := by
  decide +kernel

/-- P_FULL at `k = 38`, the last offset (V-FE-3). -/
theorem test_witness_DecodeOfAFullFrame :
    (Frame.ofPayload 38 pFull).Extractable 38 ∧ (Frame.ofPayload 38 pFull).spanSum 38 % 256 = 0xFF ∧
    (Frame.ofPayload 38 pFull).payloadByte 38 12 ≠ 0xFF := by
  decide +kernel

theorem test_witness_DecodeOfARainOnlyFrame :
    (Frame.ofPayload 0 pRain).Extractable 0 ∧ (Frame.ofPayload 0 pRain).spanSum 0 % 256 = 0xFF ∧
    (Frame.ofPayload 0 pRain).payloadByte 0 12 = 0xFF := by
  decide +kernel

theorem test_witness_DecodeDependsOnTheFrameOnly :
    (driven 0 1 rainFrame).ports.frame = (afterRain ⟨1, 0, rainFrame⟩).ports.frame ∧
    (driven 0 1 rainFrame).out ≠ (afterRain ⟨1, 0, rainFrame⟩).out := by
  decide +kernel

theorem test_witness_DecodeIsItsMicroOperationsInOrder :
    outOf (exec .decode (driven 0 1 rainFrame)) = some rainOut ∧ rainOut.status = 1 ∧
    outOf (exec .decode (driven 0 1 blankFrame)) = some (failOut 3) ∧ (failOut 3).status ≠ 1 := by
  decide +kernel

theorem test_witness_PayloadFrameRoundTrip :
    38 ≤ 38 ∧ (driven 0 1 (Frame.ofPayload 38 pFull)).ports.frame = Frame.ofPayload 38 pFull ∧
    (driven 0 1 (Frame.ofPayload 0 pRain)).ports.frame = Frame.ofPayload 0 pRain := by
  exact ⟨by decide, rfl, rfl⟩

/-- The payload of V-FD-26: P_RAIN with other unread bytes. -/
def pRainOther : BitVec 160 := 0x00FF3344556677FDABFE2250FFFEDC120053ABCD#160

/-- The payload of V-FD-15: P_FULL with another low nibble of `PB[13]`. -/
def pFullOther : BitVec 160 := 0x11223344556677FDABFE2250234F560000760000#160

/-- P_RAIN and V-FD-26. -/
theorem test_witness_UnreadPayloadPositionsDoNotMatter_rain :
    ((List.range' 2 16).map fun i => (pbByte pRain i).toNat).sum % 256 = 0xFF ∧
    ((List.range' 2 16).map fun i => (pbByte pRainOther i).toNat).sum % 256 = 0xFF ∧
    (∀ i ∈ [7, 8, 9, 10, 12, 14], pbByte pRain i = pbByte pRainOther i) ∧
    hi (pbByte pRain 11) = hi (pbByte pRainOther 11) ∧ hi (pbByte pRain 13) = hi (pbByte pRainOther 13) ∧
    (pbByte pRain 12 = 0xFF#8 → lo (pbByte pRain 13) = lo (pbByte pRainOther 13)) ∧ pRain ≠ pRainOther := by
  decide +kernel

/-- P_FULL and V-FD-15. -/
theorem test_witness_UnreadPayloadPositionsDoNotMatter_full :
    ((List.range' 2 16).map fun i => (pbByte pFull i).toNat).sum % 256 = 0xFF ∧
    ((List.range' 2 16).map fun i => (pbByte pFullOther i).toNat).sum % 256 = 0xFF ∧
    (∀ i ∈ [7, 8, 9, 10, 12, 14], pbByte pFull i = pbByte pFullOther i) ∧
    hi (pbByte pFull 11) = hi (pbByte pFullOther 11) ∧ hi (pbByte pFull 13) = hi (pbByte pFullOther 13) ∧
    (pbByte pFull 12 = 0xFF#8 → lo (pbByte pFull 13) = lo (pbByte pFullOther 13)) ∧ pFull ≠ pFullOther := by
  decide +kernel

/-- After P_RAIN, with P_FULL on the port. -/
theorem test_witness_StepKeepsTheInvariant :
    (afterRain ⟨0, 1, Frame.ofPayload 0 pFull⟩).Inv ∧
    outOf (step (afterRain ⟨0, 1, Frame.ofPayload 0 pFull⟩)) = some fullOut := by
  decide +kernel

theorem test_witness_InvariantStatesAlwaysStep : (afterRain ⟨0, 1, blankFrame⟩).Inv := by decide +kernel

theorem test_witness_ReservedCodesAreRefused :
    (failOut 6).status = 6 ∧ (failOut 7).status = 7 ∧ rainOut.status.toNat ≤ 5 ∧
    ({ rainOut with present := 0x17C } : Outputs).present ≠ 0x000#9 ∧
    ({ rainOut with present := 0x17C } : Outputs).present ≠ 0x17D#9 ∧
    ({ rainOut with present := 0x17C } : Outputs).present ≠ 0x1F1#9 := by
  decide

theorem test_witness_RecordAfterDecode :
    outOf (exec .decode (driven 0 1 blankFrame)) = some (failOut 3) ∧
    outOf (exec .decode (driven 0 1 (Frame.ofPayload 0 pFull))) = some fullOut ∧
    outOf (exec .decode (driven 0 1 rainFrame)) = some rainOut ∧ fullOut.variant = 0 ∧ rainOut.variant = 1 := by
  decide +kernel

/-- L3-2, its first lines: RESET, P_RAIN, its outputs. -/
def rainScript : List Line :=
  .reset :: decodePayload 0 pRain ++ [.expect [(.status, 1), (.variant, 1), (.present, 0x1F1), (.rainDmm, 123)]]

theorem test_witness_ScriptRunsOneStepALine :
    runScript State.reset Ports.quiet.frame rainScript =
      .ended (nextOr State.reset ((nextOr State.reset (State.reset.stepWith ⟨1, 0, Ports.quiet.frame⟩)).stepWith
        ⟨0, 1, rainFrame⟩)) := by
  decide +kernel

theorem test_witness_InstancesAreIndependent :
    ∃ w x, stepInstance #v[driven 0 1 rainFrame, driven 0 1 blankFrame] (0 : Fin 2) = .next w ∧
      stepInstance w (1 : Fin 2) = .next x ∧ (0 : Fin 2) ≠ 1 := by
  exact ⟨_, _, rfl, rfl, by decide⟩

end Sys2Proof.Tests
end

section
/-! PROOFS. What a step can do, said once; the ranges of the decoded fields; and the statements of this family: the
invariant that every step keeps, and the command that a step runs. -/

namespace Sys2Proof.Machine

/-! ### One step -/

/-- A step with `RST` asserted is a reset, then the ports move on (R105). -/
theorem step_of_rst {s : State} (hres : s.reserved = none) (hrst : s.ports.rst = 1#1) :
    step s = .next s.takeReset.advancePorts := by
  rw [step, hres]
  exact if_pos hrst

/-- A step without reset runs the command of the sampled strobe, then the ports move on (R17, R45). -/
theorem step_of_not_rst {s : State} (hres : s.reserved = none) (hrst : s.ports.rst = 0#1) :
    step s = advance (exec (decodeStrobe s.ports.start) s) := by
  rw [step, hres]
  exact if_neg (by rw [hrst]; decide)

@[simp] theorem decodeStrobe_one : decodeStrobe 1#1 = .decode := rfl
@[simp] theorem decodeStrobe_zero : decodeStrobe 0#1 = .nop := rfl

@[simp] theorem exec_decode (s : State) : exec .decode s = execDecode s := rfl
@[simp] theorem exec_nop (s : State) : exec .nop s = .next s := rfl

/-- Everything a step that gives a next state can do (R17, R45, R92, R105): from a state with no reserved code it is
a reset, a NOP or a DECODE, and then the ports move on. -/
theorem step_cases {s t : State} (h : step s = .next t) :
    s.reserved = none ∧
    ((s.ports.rst = 1#1 ∧ t = s.takeReset.advancePorts) ∨
     (s.ports.rst = 0#1 ∧ s.ports.start = 0#1 ∧ t = s.advancePorts) ∨
     (s.ports.rst = 0#1 ∧ s.ports.start = 1#1 ∧ ∃ u, execDecode s = .next u ∧ t = u.advancePorts)) := by
  cases hres : s.reserved with
  | some r =>
    rw [step, hres] at h
    cases h
  | none =>
    refine ⟨rfl, ?_⟩
    obtain hrst | hrst := s.ports.rst.eq_zero_or_eq_one
    · rw [step_of_not_rst hres hrst] at h
      obtain hstart | hstart := s.ports.start.eq_zero_or_eq_one
      · rw [hstart, decodeStrobe_zero, exec_nop, advance_next] at h
        cases h
        exact .inr (.inl ⟨hrst, hstart, rfl⟩)
      · rw [hstart, decodeStrobe_one, exec_decode] at h
        exact .inr (.inr ⟨hrst, hstart, advance_eq_next h⟩)
    · rw [step_of_rst hres hrst] at h
      cases h
      exact .inl ⟨hrst, rfl⟩

/-- With nothing pending, the ports keep the frame and put both strobes back to 0 (log 3). -/
theorem advancePorts_of_pending_nil {s : State} (h : s.pending = []) :
    s.advancePorts = { s with ports := ⟨0#1, 0#1, s.ports.frame⟩ } := by
  rw [State.advancePorts, h]
  rfl

/-- The ports take the oldest of the pending values (log 1). -/
theorem advancePorts_of_pending_cons {s : State} {p : Ports} {ps : List Ports} (h : s.pending = p :: ps) :
    s.advancePorts = { s with ports := p, pending := ps } := by
  rw [State.advancePorts, h]

/-! ### The bytes of a strobe -/

/-- The byte that carries a strobe reads back as the command of the strobe (R45, log 12). -/
theorem decode_strobe_byte (b : Bit) : decode [b.setWidth 8] = .ok (decodeStrobe b, []) := by
  obtain rfl | rfl := b.eq_zero_or_eq_one
  · rfl
  · rfl

/-- A strobe issues a host command, never a micro-operation (R45, R57). -/
theorem decodeStrobe_wellFormed (b : Bit) : (decodeStrobe b).wellFormed = true := by
  unfold decodeStrobe
  split <;> rfl

/-! ### The ranges of the decoded fields -/

/-- The raw wind gust of any payload (R74). -/
theorem rawGust_le (f : Frame) (k : Nat) : f.rawGust k ≤ 2565 := by
  unfold Frame.rawGust
  omega

/-- The raw wind speed of any payload (R75). -/
theorem rawSpeed_le (f : Frame) (k : Nat) : f.rawSpeed k ≤ 2565 := by
  unfold Frame.rawSpeed
  omega

theorem hiNat_le {b : Nat} (h : b < 256) : hiNat b ≤ 15 := by
  unfold hiNat
  omega

theorem loNat_le (b : Nat) : loNat b ≤ 15 := by
  unfold loNat
  omega

/-- The wind direction of any payload (R76). -/
theorem rawDir_le (f : Frame) (k : Nat) : f.rawDir k ≤ 1665 := by
  have h10 := hiNat_le (payloadByte_lt f k 10)
  have l10 := loNat_le (f.payloadByte k 10)
  have h11 := hiNat_le (payloadByte_lt f k 11)
  unfold Frame.rawDir
  omega

/-- The rainfall of any payload (R77). -/
theorem rawRain_le (f : Frame) (k : Nat) : f.rawRain k ≤ 16665 := by
  unfold Frame.rawRain
  omega

/-- The humidity of any payload (R80). -/
theorem rawHum_le (f : Frame) (k : Nat) : f.rawHum k ≤ 165 := by
  have h14 := hiNat_le (payloadByte_lt f k 14)
  have l14 := loNat_le (f.payloadByte k 14)
  unfold Frame.rawHum
  omega

/-- The uncorrected temperature of a payload whose `PB[12]` is not the sentinel (R78): its two nibbles are not both
15, and the greatest such byte is 0xFE. -/
theorem rawTemp_le {f : Frame} {k : Nat} (h : f.payloadByte k 12 ≠ 0xFF) : f.rawTemp k ≤ 1655 := by
  have h12 := payloadByte_lt f k 12
  have h13 := hiNat_le (payloadByte_lt f k 13)
  unfold Frame.rawTemp
  simp only [hiNat, loNat] at h13 ⊢
  omega

/-- The corrected temperature of such a payload fits `TEMP_DC` and reads back in the range of R21 (R79). -/
theorem correctedTemp_range {n : Nat} (h : n ≤ 1655) :
    -399 ≤ (BitVec.ofInt 12 (correctedTemp n)).toInt ∧ (BitVec.ofInt 12 (correctedTemp n)).toInt ≤ 655 := by
  have hr : -399 ≤ correctedTemp n ∧ correctedTemp n ≤ 655 := by
    unfold correctedTemp tempThresh tempOffset
    split <;> omega
  rwa [BitVec.toInt_ofInt_eq_self (by decide) (by omega) (by omega)]

/-! ### The outputs a step leaves -/

/-- The outputs of a failure or of reset are good: a defined code other than 1, and a cleared record (R86, R105). -/
theorem cleared_good {c : BitVec 3} (hle : c.toNat ≤ 5) (hne : c ≠ 1) :
    Outputs.Good ⟨c, 0, 0, 0, 0, 0, 0, 0, 0⟩ :=
  .inr ⟨hle, hne, rfl, rfl, rfl, rfl, rfl, rfl, rfl, rfl⟩

/-- The wind registers of a success hold values in range (R23, R24, R25). -/
theorem decoded_windInRange {u : Txn} {f : Frame} {k : Nat} (hd : u.Decoded f k) :
    u.gustCkmh.toNat ≤ 92340 ∧ u.speedCkmh.toNat ≤ 92340 ∧ u.wdirRaw.toNat ≤ 1665 := by
  rw [hd.gust, hd.speed, hd.dir]
  have hg := rawGust_le f k
  have hs := rawSpeed_le f k
  exact ⟨by omega, by omega, rawDir_le f k⟩

/-- The record of a RAIN_ONLY success is good (R26, R54, R83). -/
theorem decoded_rainOnly_good {u : Txn} {f : Frame} {k : Nat} (hd : u.Decoded f k) (h : f.payloadByte k 12 = 0xFF) :
    Outputs.Good ⟨1, 1, 0x1F1#9, 0, 0, u.gustCkmh, u.speedCkmh, u.wdirRaw, u.rainRaw⟩ :=
  .inl ⟨rfl, .inr ⟨rfl, rfl, rfl, rfl, (hd.rain h).trans_le (rawRain_le f k), decoded_windInRange hd⟩⟩

/-- The record of a FULL success is good (R21, R22, R54, R83). -/
theorem decoded_full_good {u : Txn} {f : Frame} {k : Nat} (hd : u.Decoded f k) (h : f.payloadByte k 12 ≠ 0xFF) :
    Outputs.Good ⟨1, 0, 0x17D#9, u.tempCorr, u.humRaw, u.gustCkmh, u.speedCkmh, u.wdirRaw, 0⟩ := by
  have ht : -399 ≤ u.tempCorr.toInt ∧ u.tempCorr.toInt ≤ 655 := by
    rw [hd.temp h]
    exact correctedTemp_range (rawTemp_le h)
  exact .inl ⟨rfl, .inl ⟨rfl, rfl, rfl, ht.1, ht.2, (hd.hum h).trans_le (rawHum_le f k), decoded_windInRange hd⟩⟩

/-! ### The invariant -/

/-- The ports are no part of the invariant. -/
theorem inv_advancePorts {s : State} : s.advancePorts.Inv ↔ s.Inv := by
  simp only [State.Inv, advancePorts_out, advancePorts_txn]

/-- Reset leaves cleared outputs and an empty payload buffer (R105, log 4). -/
theorem takeReset_inv (s : State) : s.takeReset.Inv :=
  ⟨cleared_good (by decide) (by decide), beginTxn_good State.reset⟩

/-- DECODE establishes the invariant from any state (R83, R86, R89): it leaves the code of a failure over a cleared
record, or the record of one variant. -/
theorem execDecode_inv {s t : State} (h : execDecode s = .next t) : t.Inv := by
  obtain ⟨u, o, hpb, e, ho⟩ := execDecode_spec s
  rw [e] at h
  cases h
  refine ⟨?_, hpb⟩
  rcases ho with ⟨-, rfl⟩ | ⟨-, -, rfl⟩ | ⟨k, -, -, -, -, rfl⟩ | ⟨k, -, -, rfl⟩ | ⟨k, -, -, hd, rfl⟩
  · exact cleared_good (by decide) (by decide)
  · exact cleared_good (by decide) (by decide)
  · exact cleared_good (by decide) (by decide)
  · exact cleared_good (by decide) (by decide)
  · by_cases h12 : s.ports.frame.payloadByte k 12 = 0xFF
    · simpa only [if_pos h12] using decoded_rainOnly_good hd h12
    · simpa only [if_neg h12] using decoded_full_good hd h12

/-- Settles O44: a step is a reset, a NOP or a DECODE. The first and the last establish the invariant, NOP keeps it,
and the moving ports are no part of it. -/
theorem stepKeepsTheInvariant : Obligations.StepKeepsTheInvariant := by
  intro s t hs h
  obtain ⟨-, ⟨-, rfl⟩ | ⟨-, -, rfl⟩ | ⟨-, -, u, hu, rfl⟩⟩ := step_cases h
  · exact inv_advancePorts.2 (takeReset_inv s)
  · exact inv_advancePorts.2 hs
  · exact inv_advancePorts.2 (execDecode_inv hu)

/-- Settles O1: the byte of the sampled strobe names the command that the step runs, and the two pending cases are
those of the ports' move. -/
theorem stepRunsTheIssuedCommand : Obligations.StepRunsTheIssuedCommand := by
  intro s i hres hrst hdec
  rw [decode_strobe_byte] at hdec
  obtain rfl : decodeStrobe s.ports.start = i := by cases hdec; rfl
  have hstep := step_of_not_rst hres hrst
  refine ⟨decodeStrobe_wellFormed _, hstep, fun t ht => ⟨fun hp => ?_, fun p ps hp => ?_⟩⟩
  · rw [hstep, ht, advance_next, advancePorts_of_pending_nil hp]
  · rw [hstep, ht, advance_next, advancePorts_of_pending_cons hp]

end Sys2Proof.Machine
end

section
/-! PROOFS. The row bits and the payload buffer as DECODE uses them: what EXTRACT leaves in the buffer, bit by bit, and
the record of a frame that passes every check. -/

namespace Sys2Proof.Machine

/-! ### Row bits and bytes of the buffer -/

/-- There is no row bit from `LEN` on (R32, R104). -/
theorem rowBit_absent {f : Frame} {i : Nat} (h : f.len.toNat ≤ i) : f.rowBit i = .error .rowBitAbsent :=
  if_neg fun hi => absurd hi.1 (Nat.not_lt.2 h)

/-- There is no byte to read from address 20 on (R34). -/
theorem memRead_absent {t : Txn} {i : Nat} (h : 20 ≤ i) : t.memRead i = .error .pbAddressAbsent :=
  if_pos h

/-- There is no byte to write from address 20 on (R34). -/
theorem memWrite_absent {t : Txn} {i : Nat} (h : 20 ≤ i) (v : Byte) : t.memWrite i v = .error .pbAddressAbsent :=
  if_pos h

/-- A byte of the buffer with an unspecified bit cannot be read (R37, R104). -/
theorem memRead_unspecified {t : Txn} {i : Nat} (hi : i < 20) (h : Memory.read t.pbSpec i ≠ 0xFF#8) :
    t.memRead i = .error .pbBitUnspecified :=
  (if_neg (Nat.not_le.2 hi)).trans (if_neg h)

/-- Settles O9: below `LEN`, and so below 230, the port carries the bit; from `LEN` on there is none. -/
theorem rowBitIsDefinedBelowLen : Obligations.RowBitIsDefinedBelowLen := by
  intro f i hlen
  exact ⟨fun hi => rowBit_ok hi (by omega), rowBit_absent⟩

/-- Settles O10: a write within the buffer succeeds, and the memories' laws give both reads. -/
theorem payloadBufferReadAfterWrite : Obligations.PayloadBufferReadAfterWrite := by
  intro t i v hpb hspec
  refine ⟨fun hi => ?_, fun hi => ⟨memWrite_absent hi v, memRead_absent hi⟩⟩
  have hw := memWrite_ok (t := t) hi v
  exact ⟨_, hw, memRead_memWrite_same ⟨hpb, hspec⟩ hw, fun _ hj => memRead_memWrite_other hj hw, rfl⟩

/-! ### EXTRACT -/

@[simp] theorem exec_extract (s : State) : exec .extract s = (extract s).settle := rfl

/-- The state EXTRACT leaves, given the values it has written to the payload buffer (R64). -/
def State.extracted (s : State) (u : Txn) : State :=
  s.setTxn { u with nbits := BitVec.ofNat 8 s.extractBits, plenBytes := BitVec.ofNat 5 (s.extractBits / 8) }

/-- EXTRACT passes with what it has written, when no write stops it (R64). -/
theorem exec_extract_of_extractPb {s : State} {u : Txn} (h : s.extractPb = .ok u) :
    exec .extract s = .next (s.extracted u) := by
  rw [exec_extract, extract, h]
  rfl

/-- EXTRACT takes at most the 160 bits of the buffer (R64). -/
theorem extractBits_le (s : State) : s.extractBits ≤ 160 := Nat.min_le_right _ _

theorem extracted_nbits (s : State) (u : Txn) : (s.extracted u).txn.nbits.toNat = s.extractBits := by
  have hle := extractBits_le s
  simp only [State.extracted, setTxn_txn, BitVec.toNat_ofNat]
  omega

theorem extracted_plenBytes (s : State) (u : Txn) : (s.extracted u).txn.plenBytes.toNat = s.extractBits / 8 := by
  have hle := extractBits_le s
  simp only [State.extracted, setTxn_txn, BitVec.toNat_ofNat]
  omega

/-- EXTRACT writes the buffer and its two counts, and nothing else (R64). -/
theorem extracted_frame {s : State} {u : Txn} (h : s.txn.SameButPb u) :
    s.extracted u = { s with txn := { s.txn with
      nbits := (s.extracted u).txn.nbits, plenBytes := (s.extracted u).txn.plenBytes
      pb := u.pb, pbSpec := u.pbSpec } } := by
  simp only [State.extracted, State.setTxn]
  rw [h]

/-- Bit `7 - m` of byte `i` of the buffer is the same in both, in value and in being specified (R37). -/
abbrev Txn.SameBit (t u : Txn) (i m : Nat) : Prop :=
  (Memory.read u.pb i).getLsbD (7 - m) = (Memory.read t.pb i).getLsbD (7 - m) ∧
  (Memory.read u.pbSpec i).getLsbD (7 - m) = (Memory.read t.pbSpec i).getLsbD (7 - m)

/-- What EXTRACT writes, by the position of a bit in the buffer (R35, R37, R64): a byte that lies wholly below
`NBITS` is the row's, a bit below `NBITS` in the byte that `NBITS` cuts is the row's and is specified, and a bit from
`NBITS` on is as it was. -/
theorem extractPb_bits {s : State} (hf : s.ports.frame.len.toNat ≤ 230) (hw : s.txn.PbWf)
    (hlen : s.txn.soff.toNat + s.extractBits ≤ s.ports.frame.len.toNat) :
    ∃ u, s.extractPb = .ok u ∧ s.txn.SameButPb u ∧
      (∀ i < s.extractBits / 8,
        u.memRead i = .ok (BitVec.ofNat 8 (s.ports.frame.byteAt (s.txn.soff.toNat + 8 * i)))) ∧
      (∀ i m, m < 8 → s.extractBits / 8 = i → 8 * i + m < s.extractBits →
        (Memory.read u.pb i).getLsbD (7 - m) = s.ports.frame.bits.getLsbD (s.txn.soff.toNat + (8 * i + m)) ∧
        (Memory.read u.pbSpec i).getLsbD (7 - m) = true) ∧
      ∀ i m, m < 8 → s.extractBits ≤ 8 * i + m → s.txn.SameBit u i m := by
  obtain ⟨u, hu, hsame, -, -, hwhole, hval, hspec, hafter⟩ := extractPb_spec hf hw hlen
  refine ⟨u, hu, hsame, hwhole, fun i m hm hi hlt => ?_, fun i m hm hle => ?_⟩
  · subst hi
    have hmem : m < s.extractBits % 8 := by omega
    rw [hval m hm, hspec m hm, if_pos hmem, if_pos hmem, Nat.add_assoc]
    exact ⟨rfl, rfl⟩
  · obtain rfl | hlt : i = s.extractBits / 8 ∨ s.extractBits / 8 < i := by omega
    · have hnot : ¬ m < s.extractBits % 8 := by omega
      exact ⟨(hval m hm).trans (if_neg hnot), (hspec m hm).trans (if_neg hnot)⟩
    · exact ⟨by rw [(hafter i hlt).1], by rw [(hafter i hlt).2]⟩

/-- Settles O15: the bits of the buffer are those of `extractPb_bits`, and a whole byte's bits are the row's, most
significant first. -/
theorem extractPacksTheBitsAfterTheMarker : Obligations.ExtractPacksTheBitsAfterTheMarker := by
  intro s hf hpb hspec hlen
  obtain ⟨u, hu, hsame, hwhole, hpartial, hkeep⟩ := extractPb_bits hf ⟨hpb, hspec⟩ hlen
  refine ⟨s.extracted u, exec_extract_of_extractPb hu, extracted_nbits s u, extracted_plenBytes s u,
    fun i hi => ⟨_, hwhole i hi, fun m hm => ?_⟩, hpartial, hkeep, extracted_frame hsame⟩
  rw [byteAt_bit _ _ hm, Nat.add_assoc]

/-- Settles O16: a byte that reaches beyond `NBITS` keeps its last bit unspecified, as it was when the transaction
began. -/
theorem unextractedBytesCannotBeRead : Obligations.UnextractedBytesCannotBeRead := by
  intro s hf hlen
  have hgood := beginTxn_good s
  obtain ⟨u, hu, -, hwhole, -, hkeep⟩ := extractPb_bits (s := s.beginTxn) hf ⟨hgood.1, hgood.2.1⟩ hlen
  refine ⟨_, exec_extract_of_extractPb hu, fun i hi => ⟨fun h => ⟨_, hwhole i ?_⟩, fun h => ?_⟩⟩
  · have hn : s.beginTxn.extractBits = min s.txn.rem.toNat 160 := rfl
    omega
  · refine memRead_unspecified hi fun (hff : Memory.read u.pbSpec i = 0xFF#8) => ?_
    have hlast := (hkeep i 7 (by decide) (Nat.le_of_lt_succ h)).2
    rw [beginTxn_pbSpec, Memory.read_nil, hff] at hlast
    exact absurd hlast (by decide)

/-! ### The record of a frame that passes every check -/

/-- DECODE of a frame that passes the front end and the checksum commits the record of its variant (R65, R68, R83,
R89). -/
theorem execDecode_of_checksum_ok {s : State} {k : Nat} (hext : s.ports.frame.Extractable k)
    (hsum : s.ports.frame.spanSum k % 256 = 0xFF) :
    ∃ u : Txn, u.Decoded s.ports.frame k ∧ exec .decode s = .next { s with
      txn := u
      out := if s.ports.frame.payloadByte k 12 = 0xFF then
          ⟨1, 1, 0x1F1#9, 0, 0, u.gustCkmh, u.speedCkmh, u.wdirRaw, u.rainRaw⟩
        else ⟨1, 0, 0x17D#9, u.tempCorr, u.humRaw, u.gustCkmh, u.speedCkmh, u.wdirRaw, 0⟩ } := by
  obtain ⟨hshape, hfirst, h144⟩ := hext
  obtain ⟨u, o, -, e, ho⟩ := execDecode_spec s
  rcases ho with ⟨hno, -⟩ | ⟨-, hno, -⟩ | ⟨j, -, hj, -, hshort, -⟩ | ⟨j, hj, hbad, -⟩ | ⟨j, hj, -, hd, rfl⟩
  · exact absurd hshape hno
  · have hend := hno k hfirst.1
    omega
  · rw [firstMarker_unique hj hfirst] at hshort
    omega
  · rw [firstMarker_unique hj.2.1 hfirst] at hbad
    exact absurd hsum hbad
  · rw [firstMarker_unique hj.2.1 hfirst] at hd e
    exact ⟨u, hd, e⟩

/-- The corrected temperature of a payload that is not RAIN_ONLY reads back from its 12 bits (R78, R79). -/
theorem correctedTemp_toInt {n : Nat} (h : n ≤ 1655) :
    (BitVec.ofInt 12 (correctedTemp n)).toInt = if 600 < n then (n : Int) - 1000 else n := by
  have hval : correctedTemp n = if 600 < n then (n : Int) - 1000 else n := rfl
  rw [← hval]
  refine BitVec.toInt_ofInt_eq_self (by decide) ?_ ?_ <;> rw [hval] <;> split <;> omega

/-- Settles O38: the committed record is the FULL one, and its registers hold the decoded fields. -/
theorem decodeOfAFullFrame : Obligations.DecodeOfAFullFrame := by
  intro s k hext hsum h12
  obtain ⟨u, hd, e⟩ := execDecode_of_checksum_ok hext hsum
  rw [if_neg h12] at e
  refine ⟨_, e, rfl, rfl, rfl, ?_, hd.hum h12, hd.gust, hd.speed, hd.dir, rfl, rfl, rfl⟩
  simp only [hd.temp h12]
  exact correctedTemp_toInt (rawTemp_le h12)

/-- Settles O39: the committed record is the RAIN_ONLY one, and its registers hold the decoded fields. -/
theorem decodeOfARainOnlyFrame : Obligations.DecodeOfARainOnlyFrame := by
  intro s k hext hsum h12
  obtain ⟨u, hd, e⟩ := execDecode_of_checksum_ok hext hsum
  rw [if_pos h12] at e
  exact ⟨_, e, rfl, rfl, rfl, rfl, rfl, hd.gust, hd.speed, hd.dir, hd.rain h12, rfl, rfl⟩

end Sys2Proof.Machine
end

section
/-! PROOFS. The frame of DECODE_PAYLOAD as the front end sees it, and the statement that it carries its payload. -/

namespace Sys2Proof.Machine

/-! ### The frame of DECODE_PAYLOAD -/

/-- DECODE_PAYLOAD drives one row of `k + 192` bits, an accepted shape (R59, R60). -/
theorem ofPayload_shapeOk {k : Nat} (hk : k ≤ 38) (pb : BitVec 160) : (Frame.ofPayload k pb).ShapeOk := by
  have hlen := ofPayload_len hk pb
  exact ⟨rfl, by omega, by omega⟩

/-- Before `k`, the row of DECODE_PAYLOAD is 0 (R59). -/
theorem payloadRowBit_lead {k i : Nat} (pb : BitVec 160) (hi : i < k) : payloadRowBit k pb i = false :=
  if_pos hi

/-- From `k` on, the row of DECODE_PAYLOAD is the marker (R59). -/
theorem payloadRowBit_marker {k t : Nat} (pb : BitVec 160) (ht : t < 32) :
    payloadRowBit k pb (k + t) = markerBit t := by
  rw [payloadRowBit, if_neg (by omega), if_pos (by omega), Nat.add_sub_cancel_left]

/-- From `k + 32` on, the row of DECODE_PAYLOAD is the payload (R59). -/
theorem payloadRowBit_payload {k p : Nat} (pb : BitVec 160) (hp : p < 160) :
    payloadRowBit k pb (k + 32 + p) = payloadBit pb p := by
  rw [payloadRowBit, if_neg (by omega), if_neg (by omega), if_pos (by omega), Nat.add_sub_cancel_left]

/-- The marker begins with a 1, so none stands at an offset whose bit is 0 (R3). -/
theorem not_markerAt_of_zero {f : Frame} {j : Nat} (h : f.bits.getLsbD j = false) : ¬ f.MarkerAt j := by
  intro hmark
  have hfirst := hmark.2 0 (by decide)
  rw [Nat.add_zero, h] at hfirst
  exact absurd hfirst (by decide)

/-- The first marker of a DECODE_PAYLOAD frame stands at `k`: only zero bits come before it (R59, R61). -/
theorem ofPayload_firstMarker {k : Nat} (hk : k ≤ 38) (pb : BitVec 160) : (Frame.ofPayload k pb).FirstMarker k := by
  have hlen := ofPayload_len hk pb
  refine ⟨⟨by omega, fun t ht => ?_⟩, fun j hj => not_markerAt_of_zero ?_⟩
  · rw [ofPayload_bit k pb (by omega), payloadRowBit_marker pb ht, markerBit_eq ht]
  · rw [ofPayload_bit k pb (by omega), payloadRowBit_lead pb hj]

/-- A DECODE_PAYLOAD frame passes the front end with its marker at `k` (R59, R65). -/
theorem ofPayload_extractable {k : Nat} (hk : k ≤ 38) (pb : BitVec 160) : (Frame.ofPayload k pb).Extractable k := by
  have hlen := ofPayload_len hk pb
  exact ⟨ofPayload_shapeOk hk pb, ofPayload_firstMarker hk pb, by omega⟩

/-- The eight row bits of payload byte `i` pack to the byte that was placed there: bit `7 - m` is placed at `m` and
packed from `m` (R35, R59, R64). -/
theorem ofPayload_payloadByte {k i : Nat} (hk : k ≤ 38) (pb : BitVec 160) (hi : i < 20) :
    BitVec.ofNat 8 ((Frame.ofPayload k pb).payloadByte k i) = pbByte pb i := by
  refine BitVec.eq_of_getLsbD_eq fun j hj => ?_
  obtain ⟨m, hm, rfl⟩ : ∃ m < 8, j = 7 - m := ⟨7 - j, by omega, by omega⟩
  calc (BitVec.ofNat 8 ((Frame.ofPayload k pb).payloadByte k i)).getLsbD (7 - m)
    _ = (Frame.ofPayload k pb).bits.getLsbD (k + 32 + (8 * i + m)) := by
      rw [Frame.payloadByte, byteAt_bit _ _ hm, Nat.add_assoc]
    _ = payloadBit pb (8 * i + m) := by
      rw [ofPayload_bit k pb (by omega), payloadRowBit_payload pb (by omega)]
    _ = pb.getLsbD (152 - 8 * i + (7 - m)) := congrArg pb.getLsbD (by omega)
    _ = (pbByte pb i).getLsbD (7 - m) := (pbByte_bit pb hj).symm

/-- The front end passes a frame whose first marker at `k` has 144 bits or more after it, and leaves the marker's
position and the whole bytes it extracted (R61 to R65). -/
theorem frontEnd_of_extractable {s : State} {k : Nat} (hw : s.txn.PbGood) (hext : s.ports.frame.Extractable k) :
    ∃ u : Txn, frontEnd s = .pass (s.setTxn u) ∧ u.k.toNat = k ∧ u.soff.toNat = k + 32 ∧
      u.rem.toNat = s.ports.frame.len.toNat - (k + 32) ∧
      ∀ i < min u.rem.toNat 160 / 8, u.memRead i = .ok (BitVec.ofNat 8 (s.ports.frame.payloadByte k i)) := by
  obtain ⟨hshape, hfirst, h144⟩ := hext
  rcases frontEnd_spec hw with ⟨hno, -⟩ | ⟨-, hno, -⟩ | ⟨j, -, hj, -, hshort, -⟩ |
      ⟨j, ⟨-, hj, -⟩, u, -, hpass, hk, hsoff, hrem, hnbits, hread⟩
  · exact absurd hshape hno
  · have hend := hno k hfirst.1
    omega
  · rw [firstMarker_unique hj hfirst] at hshort
    omega
  · obtain rfl := firstMarker_unique hj hfirst
    rw [hnbits, ← hrem] at hread
    exact ⟨u, hpass, hk, hsoff, hrem, hread⟩

/-- Settles O42: the frame passes the front end with its first marker at `k`, 160 bits remain, and each of the 20
bytes packed from them is the payload's. -/
theorem payloadFrameRoundTrip : Obligations.PayloadFrameRoundTrip := by
  intro s k pb hk hf
  have hext : s.beginTxn.ports.frame.Extractable k := by
    rw [beginTxn_ports, hf]
    exact ofPayload_extractable hk pb
  obtain ⟨u, hpass, huk, husoff, hurem, hread⟩ := frontEnd_of_extractable (beginTxn_good s) hext
  rw [beginTxn_ports, hf] at hurem hread
  rw [ofPayload_len hk pb] at hurem
  have h160 : u.rem.toNat = 160 := by omega
  refine ⟨_, hpass, huk, husoff, h160, fun i hi => ?_⟩
  rw [setTxn_txn, hread i (by omega), ofPayload_payloadByte hk pb hi]

end Sys2Proof.Machine
end

section
/-! PROOFS. The output registers that a DECODE leaves, as a function of its frame; and the statements that follow from
it: which payload positions matter, and the keyed record. -/

namespace Sys2Proof.Machine

/-! ### The outputs of a DECODE as a function of the frame -/

/-- The record of a frame whose marker stands at `k`, with the fields the frame's bits give (R73 to R83). -/
def Frame.recordAt (f : Frame) (k : Nat) : Outputs :=
  if f.payloadByte k 12 = 0xFF then
    ⟨1, 1, 0x1F1#9, 0, 0, BitVec.ofNat 17 (f.rawGust k * 36), BitVec.ofNat 17 (f.rawSpeed k * 36),
      BitVec.ofNat 11 (f.rawDir k), BitVec.ofNat 16 (f.rawRain k)⟩
  else
    ⟨1, 0, 0x17D#9, BitVec.ofInt 12 (correctedTemp (f.rawTemp k)), BitVec.ofNat 8 (f.rawHum k),
      BitVec.ofNat 17 (f.rawGust k * 36), BitVec.ofNat 17 (f.rawSpeed k * 36), BitVec.ofNat 11 (f.rawDir k), 0⟩

/-- The outputs of a DECODE of an accepted shape, the search having answered `k` (R62, R63, R67, R83, R86). -/
def Frame.outputsFrom (f : Frame) (k : Nat) : Outputs :=
  if f.len.toNat ≤ k + 32 then ⟨3, 0, 0, 0, 0, 0, 0, 0, 0⟩
  else if f.len.toNat - (k + 32) < 144 then ⟨4, 0, 0, 0, 0, 0, 0, 0, 0⟩
  else if f.spanSum k % 256 ≠ 255 then ⟨5, 0, 0, 0, 0, 0, 0, 0, 0⟩
  else f.recordAt k

/-- The outputs of a DECODE of the frame (R93, R97): those of its first failure, or its record. The search within an
accepted shape never stops (`search_spec`), so the outputs of the error branch are never taken. -/
def Frame.decodeOutputs (f : Frame) : Outputs :=
  if f.ShapeOk then
    match f.search with
    | .ok k => f.outputsFrom k
    | .error _ => Outputs.reset
  else ⟨2, 0, 0, 0, 0, 0, 0, 0, 0⟩

theorem decodeOutputs_of_search {f : Frame} {k : Nat} (hf : f.ShapeOk) (h : f.search = .ok k) :
    f.decodeOutputs = f.outputsFrom k := by
  rw [Frame.decodeOutputs, if_pos hf, h]

theorem decodeOutputs_of_not_shapeOk {f : Frame} (hf : ¬ f.ShapeOk) :
    f.decodeOutputs = ⟨2, 0, 0, 0, 0, 0, 0, 0, 0⟩ := if_neg hf

/-- Where no marker has a bit after it, the search answers the last marker's position or `LEN`, and either is too far
(R61, R62). -/
theorem decodeOutputs_of_no_marker {f : Frame} (hf : f.ShapeOk)
    (hno : ∀ j, f.MarkerAt j → f.len.toNat ≤ j + 32) : f.decodeOutputs = ⟨3, 0, 0, 0, 0, 0, 0, 0, 0⟩ := by
  obtain ⟨k, hk, hcase⟩ := search_spec hf.2.2
  have hfar : f.len.toNat ≤ k + 32 := by
    rcases hcase with hfirst | ⟨rfl, -⟩
    · exact hno k hfirst.1
    · omega
  rw [decodeOutputs_of_search hf hk, Frame.outputsFrom, if_pos hfar]

/-- The outputs of a frame whose first marker stands at `k`. -/
theorem decodeOutputs_of_firstMarker {f : Frame} {k : Nat} (hf : f.ShapeOk) (hk : f.FirstMarker k) :
    f.decodeOutputs = f.outputsFrom k :=
  decodeOutputs_of_search hf (search_of_firstMarker hf.2.2 hk)

/-- The outputs of a frame that passes the front end: those of its checksum (R65, R67). -/
theorem decodeOutputs_of_extractable {f : Frame} {k : Nat} (h : f.Extractable k) :
    f.decodeOutputs = if f.spanSum k % 256 ≠ 255 then ⟨5, 0, 0, 0, 0, 0, 0, 0, 0⟩ else f.recordAt k := by
  obtain ⟨hf, hk, h144⟩ := h
  rw [decodeOutputs_of_firstMarker hf hk, Frame.outputsFrom, if_neg (by omega), if_neg (by omega)]

/-- The registers that a successful transaction commits hold the frame's record (R83). -/
theorem decoded_record {u : Txn} {f : Frame} {k : Nat} (hd : u.Decoded f k) :
    (if f.payloadByte k 12 = 255 then
      ⟨1, 1, 0x1F1#9, 0, 0, u.gustCkmh, u.speedCkmh, u.wdirRaw, u.rainRaw⟩
    else ⟨1, 0, 0x17D#9, u.tempCorr, u.humRaw, u.gustCkmh, u.speedCkmh, u.wdirRaw, 0⟩) = f.recordAt k := by
  rw [Frame.recordAt, ← hd.gust, ← hd.speed, ← hd.dir]
  split
  · next h => simp only [← hd.rain h, BitVec.ofNat_toNat, BitVec.setWidth_eq]
  · next h => simp only [hd.temp h, ← hd.hum h, BitVec.ofNat_toNat, BitVec.setWidth_eq]

/-- DECODE writes transaction-local values and the outputs of its frame, and nothing else (R93). -/
theorem execDecode_eq (s : State) :
    ∃ u, execDecode s = .next { s with txn := u, out := s.ports.frame.decodeOutputs } := by
  obtain ⟨u, o, -, e, ho⟩ := execDecode_spec s
  suffices s.ports.frame.decodeOutputs = o from ⟨u, by rw [e, this]⟩
  rcases ho with ⟨hf, rfl⟩ | ⟨hf, hno, rfl⟩ | ⟨k, hf, hk, hlt, hshort, rfl⟩ | ⟨k, hext, hsum, rfl⟩ |
      ⟨k, hext, hsum, hd, rfl⟩
  · exact decodeOutputs_of_not_shapeOk hf
  · exact decodeOutputs_of_no_marker hf hno
  · rw [decodeOutputs_of_firstMarker hf hk, Frame.outputsFrom, if_neg (by omega), if_pos hshort]
  · rw [decodeOutputs_of_extractable hext, if_pos hsum]
  · rw [decodeOutputs_of_extractable hext, if_neg (not_not.2 hsum), decoded_record hd]

/-- DECODE leaves the outputs of its frame (R93). -/
theorem exec_decode_out (s : State) : ∃ t, exec .decode s = .next t ∧ t.out = s.ports.frame.decodeOutputs := by
  obtain ⟨u, e⟩ := execDecode_eq s
  exact ⟨_, e, rfl⟩

/-! ### The payload positions that matter -/

/-- The record depends on the positions that a field rule reads (R50, R70). -/
theorem recordAt_congr {f g : Frame} {k : Nat}
    (hbytes : ∀ i ∈ [7, 8, 9, 10, 12, 14], f.payloadByte k i = g.payloadByte k i)
    (h11 : hiNat (f.payloadByte k 11) = hiNat (g.payloadByte k 11))
    (h13 : hiNat (f.payloadByte k 13) = hiNat (g.payloadByte k 13))
    (h13lo : f.payloadByte k 12 = 0xFF → loNat (f.payloadByte k 13) = loNat (g.payloadByte k 13)) :
    f.recordAt k = g.recordAt k := by
  simp only [List.forall_mem_cons] at hbytes
  obtain ⟨h7, h8, h9, h10, h12, h14, -⟩ := hbytes
  have hgust : f.rawGust k = g.rawGust k := by rw [Frame.rawGust, h7, h8, Frame.rawGust]
  have hspeed : f.rawSpeed k = g.rawSpeed k := by rw [Frame.rawSpeed, h9, h8, Frame.rawSpeed]
  have hdir : f.rawDir k = g.rawDir k := by rw [Frame.rawDir, h10, h11, Frame.rawDir]
  have htemp : f.rawTemp k = g.rawTemp k := by rw [Frame.rawTemp, h12, h13, Frame.rawTemp]
  have hhum : f.rawHum k = g.rawHum k := by rw [Frame.rawHum, h14, Frame.rawHum]
  have hrain : f.payloadByte k 12 = 0xFF → f.rawRain k = g.rawRain k := fun h => by
    rw [Frame.rawRain, h13, h13lo h, h14, Frame.rawRain]
  simp only [Frame.recordAt, ← h12, hgust, hspeed, hdir, htemp, hhum]
  split
  · next h => rw [hrain h]
  · rfl

/-- A payload byte of a DECODE_PAYLOAD frame, as a number, is the byte that was placed there (R59). -/
theorem ofPayload_payloadByte_toNat {k i : Nat} (hk : k ≤ 38) (pb : BitVec 160) (hi : i < 20) :
    (Frame.ofPayload k pb).payloadByte k i = (pbByte pb i).toNat := by
  rw [← ofPayload_payloadByte hk pb hi, payloadByte_toNat]

/-- The span of a DECODE_PAYLOAD frame sums to that of its payload (R59, R68). -/
theorem ofPayload_spanSum {k : Nat} (hk : k ≤ 38) (pb : BitVec 160) :
    (Frame.ofPayload k pb).spanSum k = ((List.range' 2 16).map fun i => (pbByte pb i).toNat).sum := by
  refine congrArg List.sum (List.map_congr_left fun i hi => ?_)
  have hle := List.mem_range'_1.1 hi
  exact ofPayload_payloadByte_toNat hk pb (by omega)

/-- A payload that passes the checksum decodes to its record (R59, R68, R83). -/
theorem ofPayload_decodeOutputs {k : Nat} (hk : k ≤ 38) {pb : BitVec 160}
    (hsum : ((List.range' 2 16).map fun i => (pbByte pb i).toNat).sum % 256 = 0xFF) :
    (Frame.ofPayload k pb).decodeOutputs = (Frame.ofPayload k pb).recordAt k := by
  rw [← ofPayload_spanSum hk] at hsum
  rw [decodeOutputs_of_extractable (ofPayload_extractable hk pb), if_neg (not_not.2 hsum)]

theorem recordAt_status (f : Frame) (k : Nat) : (f.recordAt k).status = 1 := by
  unfold Frame.recordAt
  split <;> rfl

theorem hiNat_toNat (b : Byte) : hiNat b.toNat = (hi b).toNat := (hi_toNat b).symm

theorem loNat_toNat (b : Byte) : loNat b.toNat = (lo b).toNat := (lo_toNat b).symm

/-- Two payloads that agree on the positions a field rule reads have the same record (R50, R59). -/
theorem ofPayload_recordAt_congr {k : Nat} (hk : k ≤ 38) {pb pb' : BitVec 160}
    (hbytes : ∀ i ∈ [7, 8, 9, 10, 12, 14], pbByte pb i = pbByte pb' i)
    (h11 : hi (pbByte pb 11) = hi (pbByte pb' 11)) (h13 : hi (pbByte pb 13) = hi (pbByte pb' 13))
    (h13lo : pbByte pb 12 = 0xFF#8 → lo (pbByte pb 13) = lo (pbByte pb' 13)) :
    (Frame.ofPayload k pb).recordAt k = (Frame.ofPayload k pb').recordAt k := by
  have hb : ∀ i < 20, (Frame.ofPayload k pb).payloadByte k i = (pbByte pb i).toNat :=
    fun _ => ofPayload_payloadByte_toNat hk pb
  have hb' : ∀ i < 20, (Frame.ofPayload k pb').payloadByte k i = (pbByte pb' i).toNat :=
    fun _ => ofPayload_payloadByte_toNat hk pb'
  refine recordAt_congr (fun i hi => ?_) ?_ ?_ fun h => ?_
  · have hi20 : i < 20 := by
      simp only [List.mem_cons, List.not_mem_nil, or_false] at hi
      omega
    rw [hb i hi20, hb' i hi20, hbytes i hi]
  · rw [hb 11 (by decide), hb' 11 (by decide), hiNat_toNat, hiNat_toNat, h11]
  · rw [hb 13 (by decide), hb' 13 (by decide), hiNat_toNat, hiNat_toNat, h13]
  · rw [hb 12 (by decide)] at h
    rw [hb 13 (by decide), hb' 13 (by decide), loNat_toNat, loNat_toNat, h13lo (BitVec.eq_of_toNat_eq h)]

/-- Settles O43: both frames decode to their records, and the two records agree because every position they read
does. -/
theorem unreadPayloadPositionsDoNotMatter : Obligations.UnreadPayloadPositionsDoNotMatter := by
  intro s s' k pb pb' hk hf hf' hsum hsum' hbytes h11 h13 h13lo
  obtain ⟨t, e, hout⟩ := exec_decode_out s
  obtain ⟨t', e', hout'⟩ := exec_decode_out s'
  rw [hf, ofPayload_decodeOutputs hk hsum] at hout
  rw [hf', ofPayload_decodeOutputs hk hsum'] at hout'
  refine ⟨t, t', e, e', ?_, ?_⟩
  · rw [hout, recordAt_status]
  · rw [hout, hout', ofPayload_recordAt_congr hk hbytes h11 h13 h13lo]

/-! ### The keyed record -/

/-- No key is present, so the record has no entry (R55, R86). -/
theorem record_of_present_zero {o : Outputs} (h : o.present = 0) : o.record = [] := by
  simp [Outputs.record, Key.all, Outputs.entry, Outputs.has, Key.presentBit, h]

/-- The entries of a FULL record (R54, R55, R87). -/
theorem record_of_present_full {o : Outputs} (h : o.present = 0x17D#9) : o.record =
    [(.model, .text Config.modelId), (.temperatureC, .rational (o.tempDc.toInt / 10)),
      (.humidity, .integer o.humPct.toNat), (.windGust, .rational (o.gustCkmh.toNat / 100)),
      (.windSpeed, .rational (o.speedCkmh.toNat / 100)), (.windDirDeg, .integer o.wdirDeg.toNat),
      (.mic, .text "CHECKSUM")] := by
  simp [Outputs.record, Key.all, Outputs.entry, Outputs.has, Key.presentBit, Outputs.value, h, micTag]

/-- The entries of a RAIN_ONLY record (R54, R55, R87). -/
theorem record_of_present_rainOnly {o : Outputs} (h : o.present = 0x1F1#9) : o.record =
    [(.model, .text Config.modelId), (.windGust, .rational (o.gustCkmh.toNat / 100)),
      (.windSpeed, .rational (o.speedCkmh.toNat / 100)), (.windDirDeg, .integer o.wdirDeg.toNat),
      (.rainMm, .rational (o.rainDmm.toNat / 10)), (.mic, .text "CHECKSUM")] := by
  simp [Outputs.record, Key.all, Outputs.entry, Outputs.has, Key.presentBit, Outputs.value, h, micTag]

/-- Settles O49: DECODE leaves good outputs, so `PRESENT` is 0 after a failure and the variant's map after a success,
and the map gives the record. -/
theorem recordAfterDecode : Obligations.RecordAfterDecode := by
  intro s t h
  rcases (execDecode_inv h).1 with ⟨hok, hfull | hrain⟩ | ⟨-, hfail, -, hpresent, -⟩
  · obtain ⟨hvar, hpresent, -⟩ := hfull
    refine ⟨fun hne => absurd hok hne, fun _ _ => record_of_present_full hpresent, fun _ hv => ?_⟩
    rw [hvar] at hv
    exact absurd hv (by decide)
  · obtain ⟨hvar, hpresent, -⟩ := hrain
    refine ⟨fun hne => absurd hok hne, fun _ hv => ?_, fun _ _ => record_of_present_rainOnly hpresent⟩
    rw [hvar] at hv
    exact absurd hv (by decide)
  · exact ⟨fun _ => record_of_present_zero hpresent, fun hok => absurd hok hfail, fun hok => absurd hok hfail⟩

end Sys2Proof.Machine
end

section
/-! PROOFS. A step as a function of its port values, the ports that the host drives, and the statements about commands,
scripts and reserved codes. -/

namespace Sys2Proof.Machine

/-! ### The ports that the host drives -/

/-- The move of the ports at a step's end is the host driving what it has pending (log 1, log 3). -/
theorem advancePorts_eq_drive (s : State) : s.advancePorts = s.drive s.pending := by
  obtain ⟨out, txn, ports, pending⟩ := s
  cases pending <;> rfl

@[simp] theorem drive_out (s : State) (ps : List Ports) : (s.drive ps).out = s.out := by
  cases ps <;> rfl

/-! ### One step as a function of its ports -/

/-- The outputs after a step with port values `p` over the outputs `o` (R45, R92, R93, R105). -/
def Ports.outputsAfter (p : Ports) (o : Outputs) : Outputs :=
  if p.rst = 1#1 then Outputs.reset
  else if p.start = 1#1 then p.frame.decodeOutputs
  else o

/-- A step from a state without a reserved code writes transaction-local values and the outputs of its port values;
then the host drives its next port values (R45, R95, R105). -/
theorem step_eq {s : State} (hres : s.reserved = none) :
    ∃ x, step s = .next (({ s with txn := x, out := s.ports.outputsAfter s.out } : State).drive s.pending) := by
  unfold Ports.outputsAfter
  obtain hrst | hrst := s.ports.rst.eq_zero_or_eq_one
  · rw [step_of_not_rst hres hrst, if_neg (by rw [hrst]; decide)]
    obtain hstart | hstart := s.ports.start.eq_zero_or_eq_one
    · refine ⟨s.txn, ?_⟩
      rw [hstart, decodeStrobe_zero, exec_nop, advance_next, advancePorts_eq_drive, if_neg (by decide)]
    · obtain ⟨u, e⟩ := execDecode_eq s
      refine ⟨u, ?_⟩
      rw [hstart, decodeStrobe_one, exec_decode, e, advance_next, advancePorts_eq_drive, if_pos rfl]
  · refine ⟨Txn.reset, ?_⟩
    rw [step_of_rst hres hrst, advancePorts_eq_drive, if_pos hrst]
    rfl

/-- Settles O7: a step ends with the host driving what it has pending. -/
theorem portsMoveOnInEveryStep : Obligations.PortsMoveOnInEveryStep := by
  intro s t h
  obtain ⟨x, e⟩ := step_eq (step_cases h).1
  obtain rfl : _ = t := Host.Outcome.next.inj (e.symm.trans h)
  refine ⟨fun hnil => ?_, fun p ps hcons => ?_⟩
  · rw [hnil]
    exact ⟨rfl, rfl⟩
  · rw [hcons]
    exact ⟨rfl, rfl⟩

/-- Settles O2: each value of the sampled strobe is one command. -/
theorem strobeIssuesDecodeOrNop : Obligations.StrobeIssuesDecodeOrNop := by
  intro s hres hrst
  have hstep := step_of_not_rst hres hrst
  refine ⟨fun h => ?_, fun h => ?_, s.ports.start.eq_zero_or_eq_one.symm⟩
  · rw [hstep, h, decodeStrobe_one]
  · rw [hstep, h, decodeStrobe_zero]

/-! ### Scripts -/

/-- The port values of the step that a line is, if it is one (R58). -/
def Line.ports (f : Frame) : Line → Option Ports
  | .reset => some ⟨1, 0, f⟩
  | .frame _ => none
  | .decode => some ⟨0, 1, f⟩
  | .nop => some ⟨0, 0, f⟩
  | .expect _ => none

/-- A line that is a step drives its port values first (R58). -/
theorem scriptPorts_of_step {f : Frame} {l : Line} {p : Ports} (h : l.ports f = some p) (ls : List Line) :
    scriptPorts f (l :: ls) = p :: scriptPorts f ls := by
  cases l with
  | frame g => cases h
  | expect e => cases h
  | reset => cases h; rfl
  | decode => cases h; rfl
  | nop => cases h; rfl

/-- The host drives the port values of one step and has nothing pending. -/
theorem stepWith_eq_drive (s : State) (p : Ports) : s.stepWith p = step (s.drive [p]) := rfl

/-- A run that passes a line that is a step goes on from that step's state (R95). -/
theorem runScript_of_step {s t : State} {f : Frame} {l : Line} {p : Ports} {ls : List Line}
    (hl : l.ports f = some p) (h : runScript s f (l :: ls) = .ended t) :
    ∃ v, s.stepWith p = .next v ∧ runScript v f ls = .ended t := by
  have hrun : runScript s f (l :: ls) = match s.stepWith p with
      | .next v => runScript v f ls
      | .fault _ => .stopped
      | .refused _ => .stopped := by
    cases l with
    | frame g => cases hl
    | expect e => cases hl
    | reset => cases hl; rfl
    | decode => cases hl; rfl
    | nop => cases hl; rfl
  rw [hrun] at h
  split at h
  · exact ⟨_, ‹_›, h⟩
  · cases h
  · cases h

/-- Whether a state holds a reserved code depends on its outputs only (R56). -/
theorem reserved_congr {s s' : State} (h : s'.out = s.out) : s'.reserved = s.reserved := by
  unfold State.reserved
  rw [h]

/-- If one state steps with the port values `p`, so does another with the same outputs, whatever is pending after `p`:
it leaves the same outputs again, and what was pending is driven next (R93, R95). -/
theorem step_drive_of_stepWith {s s' v : State} {p : Ports} (hout : s'.out = s.out) (h : s.stepWith p = .next v)
    (ps : List Ports) : ∃ w : State, step (s'.drive (p :: ps)) = .next (w.drive ps) ∧ w.out = v.out := by
  rw [stepWith_eq_drive] at h
  have hres : (s.drive [p]).reserved = none := (step_cases h).1
  obtain ⟨x, e⟩ := step_eq hres
  obtain rfl : _ = v := Host.Outcome.next.inj (e.symm.trans h)
  have hres' : (s'.drive (p :: ps)).reserved = none := (reserved_congr (by simp [hout])).trans hres
  obtain ⟨x', e'⟩ := step_eq hres'
  refine ⟨_, e', ?_⟩
  simp only [drive_out, hout]
  rfl

/-- The steps that a script's port values drive, from any state with the same outputs, end with the outputs of its run:
by induction over the lines (R58, R95). -/
theorem runSteps_of_runScript {s s' t : State} {f : Frame} {ls : List Line} (hout : s'.out = s.out)
    (h : runScript s f ls = .ended t) :
    ∃ u, (s'.drive (scriptPorts f ls)).runSteps (scriptPorts f ls).length = .next u ∧ u.out = t.out := by
  induction ls generalizing s s' f with
  | nil =>
    cases h
    exact ⟨_, rfl, hout⟩
  | cons l ls ih =>
    cases hl : l.ports f with
    | some p =>
      obtain ⟨v, hv, hrest⟩ := runScript_of_step hl h
      obtain ⟨w, hw, hwout⟩ := step_drive_of_stepWith hout hv (scriptPorts f ls)
      obtain ⟨u, hu, huout⟩ := ih hwout hrest
      refine ⟨u, ?_, huout⟩
      rw [scriptPorts_of_step hl, List.length_cons, State.runSteps, hw]
      exact hu
    | none =>
      cases l with
      | frame g => exact ih hout h
      | expect e =>
        have hmeets : s.out.meets e = true := by
          by_contra hnot
          rw [runScript, if_neg hnot] at h
          cases h
        rw [runScript, if_pos hmeets] at h
        exact ih hout h
      | reset => cases hl
      | decode => cases hl
      | nop => cases hl

/-- Settles O50: the driven steps start from the script's own state. -/
theorem scriptRunsOneStepALine : Obligations.ScriptRunsOneStepALine :=
  fun _ _ _ _ h => runSteps_of_runScript rfl h

/-! ### Reserved codes and the classes of codes -/

/-- A state that holds a reserved code is refused (R104, log 10). -/
theorem step_of_reserved {s : State} {r : Refusal} (h : s.reserved = some r) : step s = .refused r := by
  rw [step, h]

/-- Settles O47: the check looks at `STATUS`, then at `PRESENT`. -/
theorem reservedCodesAreRefused : Obligations.ReservedCodesAreRefused := by
  refine fun s => ⟨fun hstatus => step_of_reserved ?_, fun hle h0 hfull hrain => step_of_reserved ?_⟩
  · have hbad : ¬ statusDefined s.out.status = true := by
      rcases hstatus with h | h <;> rw [h] <;> decide
    exact if_neg hbad
  · have hok : statusDefined s.out.status = true := decide_eq_true hle
    have hbad : ¬ presentDefined s.out.present = true := by
      simp [presentDefined, presentFull, presentRainOnly, h0, hfull, hrain]
    exact (if_pos hok).trans (if_neg hbad)

/-- Settles O48: there are eight codes. -/
theorem statusClasses : Obligations.StatusClasses := by
  unfold Obligations.StatusClasses
  decide

end Sys2Proof.Machine
end

section
/-! PROOFS. The encodings: the bytes of a host command, and the PAYLOAD rows that a payload selects. -/

namespace Sys2Proof.Machine

/-! ### The bytes of a command -/

/-- The host commands are DECODE and NOP (R45, R57). -/
theorem wellFormed_iff {i : Instr} : i.wellFormed = true ↔ i = .decode ∨ i = .nop := by
  cases i <;> decide

/-- A byte of 2 or more is not a value of the strobe (log 12). -/
theorem decode_of_two_le {b : Byte} (h : 2 ≤ b.toNat) (rest : List Byte) :
    decode (b :: rest) = .error (.notAStrobe b) :=
  if_neg (Nat.not_lt.2 h)

/-- A byte below 2 carries the strobe in bit 0 (log 12). -/
theorem decode_of_lt_two {b : Byte} (h : b.toNat < 2) (rest : List Byte) :
    decode (b :: rest) = .ok (decodeStrobe (b.setWidth 1), rest) :=
  if_pos h

/-- A byte below 2 is the byte of the command that its strobe issues (R45, log 12). -/
theorem encode_decodeStrobe {b : Byte} (h : b.toNat < 2) : encode (decodeStrobe (b.setWidth 1)) = [b] := by
  obtain rfl | rfl : b = 0#8 ∨ b = 1#8 := by
    have hb : b.toNat = 0 ∨ b.toNat = 1 := by omega
    exact hb.imp BitVec.eq_of_toNat_eq BitVec.eq_of_toNat_eq
  · rfl
  · rfl

/-- Settles O3: a command's bytes decode to it by the law of its encoding, and a byte is read as a command only below
2, where it is the byte of its strobe. -/
theorem commandBytesRoundTrip : Obligations.CommandBytesRoundTrip := by
  refine ⟨fun i rest hi => ?_, fun b rest r i h => ?_, fun b rest h => decode_of_two_le h rest⟩
  · obtain rfl | rfl := wellFormed_iff.1 hi
    · exact Laws.Encoding.decode.1 hi rest
    · exact Laws.Encoding.nop.1 hi rest
  · obtain hlt | hle := Nat.lt_or_ge b.toNat 2
    · rw [decode_of_lt_two hlt] at h
      cases h
      exact ⟨decodeStrobe_wellFormed _, encode_decodeStrobe hlt, rfl⟩
    · rw [decode_of_two_le hle] at h
      cases h

/-- Settles O4: the words are literals. -/
theorem tableWordsDecode : Obligations.TableWordsDecode := by
  unfold Obligations.TableWordsDecode
  decide

/-! ### The rows that a payload selects -/

/-- The bits of the selector mask are those of `PB[12]` (R57). -/
theorem selectorMask_bit {i : Nat} (hi : i < 160) : selectorMask.getLsbD i = decide (56 ≤ i ∧ i < 64) := by
  have hmask : selectorMask = (0xFF#8).setWidth 160 <<< 56 := rfl
  have hff : (0xFF#8) = BitVec.allOnes 8 := rfl
  rw [hmask, hff, BitVec.getLsbD_shiftLeft, BitVec.getLsbD_setWidth, BitVec.getLsbD_allOnes,
    Bool.eq_iff_iff]
  simp only [Bool.and_eq_true, Bool.not_eq_true', decide_eq_true_eq, decide_eq_false_iff_not]
  omega

/-- The selector test of the table holds exactly when `PB[12]` is the sentinel (R57, R73). -/
theorem and_selectorMask_eq_iff (pb : BitVec 160) :
    pb &&& selectorMask = selectorMask ↔ pbByte pb 12 = 0xFF#8 := by
  have hff : ∀ j < 8, (0xFF#8).getLsbD j = true := by decide
  have hbit : ∀ j < 8, (pbByte pb 12).getLsbD j = pb.getLsbD (56 + j) := fun j hj => pbByte_bit pb hj
  refine ⟨fun h => BitVec.eq_of_getLsbD_eq fun j hj => ?_, fun h => BitVec.eq_of_getLsbD_eq fun i hi => ?_⟩
  · have hj' := congrArg (BitVec.getLsbD · (56 + j)) h
    simp only [BitVec.getLsbD_and, selectorMask_bit (show 56 + j < 160 by omega)] at hj'
    rw [hbit j hj, hff j hj]
    simpa [show 56 + j < 64 by omega] using hj'
  · rw [BitVec.getLsbD_and, selectorMask_bit hi]
    by_cases hin : 56 ≤ i ∧ i < 64
    · have hi' := hbit (i - 56) (by omega)
      rw [h, hff _ (by omega), Nat.add_sub_cancel' hin.1] at hi'
      rw [← hi', Bool.true_and]
    · rw [decide_eq_false hin, Bool.and_false]

/-- RAIN_DEC is selected by the sentinel (R57). -/
theorem selectedBy_rainDec (pb : BitVec 160) : selectedBy pb .rainDec = true ↔ pbByte pb 12 = 0xFF#8 :=
  beq_iff_eq.trans (and_selectorMask_eq_iff pb)

/-- The rows of the FULL variant are selected by every other `PB[12]` (R57). -/
theorem selectedBy_full {i : Instr} (hi : i ∈ [Instr.tempDec, .tempSign, .humDec]) (pb : BitVec 160) :
    selectedBy pb i = true ↔ pbByte pb 12 ≠ 0xFF#8 := by
  have hrow : selectedBy pb i = (pb &&& selectorMask != selectorMask) := by
    simp only [List.mem_cons, List.not_mem_nil, or_false] at hi
    obtain rfl | rfl | rfl := hi <;> rfl
  rw [hrow, bne_iff_ne, ne_eq, and_selectorMask_eq_iff]

/-- The rows that apply in both variants are selected by every payload (R57). -/
theorem selectedBy_always {i : Instr}
    (hi : i ∈ [Instr.csumAcc, .csumCheck, .varsel, .gustDec, .speedDec, .wdirDec, .windScale]) (pb : BitVec 160) :
    selectedBy pb i = true := by
  simp only [List.mem_cons, List.not_mem_nil, or_false] at hi
  obtain rfl | rfl | rfl | rfl | rfl | rfl | rfl := hi <;> rfl

/-- VARSEL over a readable `PB[12]` writes `SEL` (R73). -/
theorem exec_varsel_of_read {s : State} {b : Byte} (h : s.txn.memRead 12 = .ok b) :
    exec .varsel s = .next (s.setTxn { s.txn with sel := if b = 0xFF#8 then 1#1 else 0#1 }) := by
  show (varsel s).settle = _
  rw [varsel, readPb_ok (i := sentIdx) h]
  rfl

/-- Settles O5: VARSEL and the selector test of the table both ask whether `PB[12]` is the sentinel. -/
theorem selectedRowsFollowTheVariant : Obligations.SelectedRowsFollowTheVariant := by
  intro s pb hread
  refine ⟨_, exec_varsel_of_read (hread 12 (by decide)), ?_, fun i hi => ?_, fun i hi => selectedBy_always hi pb⟩
  · rw [selectedBy_rainDec, setTxn_txn]
    by_cases h : pbByte pb 12 = 0xFF#8 <;> simp [h]
  · rw [selectedBy_full hi, setTxn_txn]
    by_cases h : pbByte pb 12 = 0xFF#8 <;> simp [h]

end Sys2Proof.Machine
end

section
/-! PROOFS. The front end's operations, each run by itself, and the status that a DECODE leaves by the first condition
of the frame that fails. -/

namespace Sys2Proof.Machine

/-! ### One operation of the front end by itself -/

@[simp] theorem exec_shapeCheck (s : State) : exec .shapeCheck s = (shapeCheck s).settle := rfl
@[simp] theorem exec_preambleSearch (s : State) : exec .preambleSearch s = (preambleSearch s).settle := rfl
@[simp] theorem exec_preOffset (s : State) : exec .preOffset s = (preOffset s).settle := rfl
@[simp] theorem exec_remainCheck (s : State) : exec .remainCheck s = (remainCheck s).settle := rfl

/-- A check that is run by itself writes the output registers when it fails, and nothing when it passes (R98,
log 11). -/
theorem settle_check (p : Prop) [Decidable p] (c : FailCode) (s : State) :
    (if p then Stage.fail c s else .pass s).settle =
      .next { s with out := if p then ⟨c.status, 0, 0, 0, 0, 0, 0, 0, 0⟩ else s.out } := by
  split
  · rw [settle_fail, takeFailure_eq]
  · exact settle_pass s

/-- Settles O11: SHAPE_CHECK passes exactly on the accepted shapes. -/
theorem shapeCheckAcceptsOneRowOf160To230 : Obligations.ShapeCheckAcceptsOneRowOf160To230 := by
  intro s
  rw [exec_shapeCheck, shapeCheck_eq]
  refine ⟨fun hok => ?_, fun hbad => ?_⟩
  · rw [if_pos hok, settle_pass]
  · rw [if_neg (by omega), settle_fail, takeFailure_eq]
    rfl

/-- PREAMBLE_SEARCH writes the position that the search of the row answers (R61). -/
theorem exec_preambleSearch_of_search {s : State} {k : Nat} (h : s.ports.frame.search = .ok k) :
    exec .preambleSearch s = .next (s.setTxn { s.txn with k := BitVec.ofNat 16 k }) := by
  rw [exec_preambleSearch]
  unfold preambleSearch
  rw [h, settle_pass]

/-- Settles O12: the search answers the first marker, whose position fits the register, or `LEN`. -/
theorem preambleSearchFindsTheFirstMarker : Obligations.PreambleSearchFindsTheFirstMarker := by
  intro s hlen
  obtain ⟨k, hk, hcase⟩ := search_spec hlen
  refine ⟨_, exec_preambleSearch_of_search hk, rfl, fun ⟨j, hj⟩ => ?_, fun hno => ?_⟩
  · obtain hfirst | ⟨-, hno⟩ := hcase
    · have hle := hfirst.1.1
      have hk16 : (BitVec.ofNat 16 k).toNat = k := by
        rw [BitVec.toNat_ofNat]
        omega
      rw [setTxn_txn, hk16]
      exact hfirst
    · exact absurd hj (hno j)
  · obtain hfirst | ⟨rfl, -⟩ := hcase
    · exact absurd hfirst.1 (hno k)
    · exact (BitVec.ofNat_toNat _ _).trans (BitVec.setWidth_eq _)

/-- Settles O13: PRE_OFFSET writes the sum and is a check that it lies below `LEN`. -/
theorem preOffsetRequiresBitsAfterTheMarker : Obligations.PreOffsetRequiresBitsAfterTheMarker := by
  intro s
  obtain ⟨v, hv, e⟩ := preOffset_spec s
  rw [exec_preOffset, e, settle_check]
  exact ⟨_, rfl, hv, rfl, fun hlt => if_neg (Nat.not_le.2 hlt), fun hle => if_pos hle⟩

/-- Settles O14: REMAIN_CHECK writes the difference and is a check that it is 144 or more. -/
theorem remainCheckRequires144Bits : Obligations.RemainCheckRequires144Bits := by
  intro s
  obtain ⟨v, hv, e⟩ := remainCheck_spec s
  rw [exec_remainCheck, e, settle_check]
  exact ⟨_, rfl, hv, rfl, fun hle => if_neg (Nat.not_lt.2 hle), fun hlt => if_pos hlt⟩

/-! ### The status of a DECODE -/

/-- A frame whose first marker has bits after it, but fewer than 144, decodes to status 4 (R63, R86). -/
theorem decodeOutputs_of_too_short {f : Frame} {k : Nat} (hf : f.ShapeOk) (hk : f.FirstMarker k)
    (hlt : k + 32 < f.len.toNat) (hshort : f.len.toNat < k + 32 + 144) :
    f.decodeOutputs = ⟨4, 0, 0, 0, 0, 0, 0, 0, 0⟩ := by
  rw [decodeOutputs_of_firstMarker hf hk, Frame.outputsFrom, if_neg (by omega), if_pos (by omega)]

/-- Settles O36: DECODE leaves the outputs of its frame, and they are known for each first condition that fails. -/
theorem decodeReportsTheFirstFailure : Obligations.DecodeReportsTheFirstFailure := by
  intro s
  obtain ⟨t, e, hout⟩ := exec_decode_out s
  refine ⟨t, e, fun hf => ?_, fun hf hno => ?_, fun k hf hk hlt hshort => ?_, fun k hf hk hlong hsum => ?_,
    fun k hf hk hlong hsum => ?_⟩
  · rw [hout, decodeOutputs_of_not_shapeOk hf]
  · rw [hout, decodeOutputs_of_no_marker hf hno]
  · rw [hout, decodeOutputs_of_too_short hf hk hlt hshort]
  · rw [hout, decodeOutputs_of_extractable ⟨hf, hk, by omega⟩, if_pos hsum]
  · rw [hout, decodeOutputs_of_extractable ⟨hf, hk, by omega⟩, if_neg (not_not.2 hsum), recordAt_status]

end Sys2Proof.Machine
end

section
/-! PROOFS. The checksum's two operations, each run by itself, and what the checksum tells of the span: it is a function
of the sum of the bytes mod 256. -/

namespace Sys2Proof.Machine

/-! ### Each operation of the checksum by itself -/

@[simp] theorem exec_csumAcc (s : State) : exec .csumAcc s = (csumAcc s).settle := rfl
@[simp] theorem exec_csumCheck (s : State) : exec .csumCheck s = (csumCheck s).settle := rfl

/-- CSUM_CHECK is a check that `CSUM` is 1 (R6, R67). -/
theorem csumCheck_eq (s : State) :
    csumCheck s = if s.txn.csum ≠ 0x01#8 then .fail .checksumMismatch s else .pass s :=
  if_congr (not_congr (BitVec.toNat_inj (y := 0x01#8))) rfl rfl

/-- CSUM_CHECK over `CSUM` = 1 changes nothing (R67). -/
theorem exec_csumCheck_of_eq {s : State} (h : s.txn.csum = 0x01#8) : exec .csumCheck s = .next s := by
  rw [exec_csumCheck, csumCheck_eq, if_neg (not_not.2 h), settle_pass]

/-- CSUM_CHECK over any other `CSUM` takes failure 5 (R67, R98, log 11). -/
theorem exec_csumCheck_of_ne {s : State} (h : s.txn.csum ≠ 0x01#8) :
    exec .csumCheck s = .next { s with out := ⟨5, 0, 0, 0, 0, 0, 0, 0, 0⟩ } := by
  rw [exec_csumCheck, csumCheck_eq, if_pos h, settle_fail, takeFailure_eq]
  rfl

/-- Settles O18: the two answers of the check. -/
theorem csumCheckPassesOnlyOne : Obligations.CsumCheckPassesOnlyOne :=
  fun _ => ⟨exec_csumCheck_of_eq, exec_csumCheck_of_ne⟩

/-! ### The checksum of a readable span -/

/-- The sum of the bytes `b 2` to `b 17`. -/
def spanSum (b : Nat → Byte) : Nat :=
  ((List.range' 2 16).map fun i => (b i).toNat).sum

/-- The value that CSUM_ACC writes over the bytes `b` (R66). -/
def spanCsum (b : Nat → Byte) : Byte :=
  BitVec.ofNat 8 (((List.range' 2 16).map fun i => 256 - (b i).toNat).sum % 256)

/-- The checksum is the sum of the complements mod 256 (R66). -/
theorem spanCsum_toNat (b : Nat → Byte) :
    (spanCsum b).toNat = ((List.range' 2 16).map fun i => 256 - (b i).toNat).sum % 256 := by
  rw [spanCsum, BitVec.toNat_ofNat, Nat.mod_mod]

/-- CSUM_ACC over a readable span writes its checksum and nothing else (R66). -/
theorem exec_csumAcc_of_span {s : State} {b : Nat → Byte}
    (h : ∀ i, 2 ≤ i → i ≤ 17 → s.txn.memRead i = .ok (b i)) :
    exec .csumAcc s = .next (s.setTxn { s.txn with csum := spanCsum b }) := by
  have hspan : ∀ i ∈ List.range' 2 16, s.txn.memRead i = .ok (b i) := fun i hi => by
    obtain ⟨hle, hlt⟩ := List.mem_range'_1.1 hi
    exact h i hle (by omega)
  rw [exec_csumAcc, csumAcc_eq hspan, settle_pass]
  rfl

/-- Settles O17: the checksum of the span is the sum of the complements. -/
theorem csumAccSumsTheComplements : Obligations.CsumAccSumsTheComplements :=
  fun _ b h => ⟨_, exec_csumAcc_of_span h, rfl, spanCsum_toNat b⟩

/-! ### The checksum as a function of the span's sum -/

/-- The checksum and the span's sum add up to 0 mod 256: each byte and its complement do (R66). -/
theorem spanCsum_add_spanSum (b : Nat → Byte) : ((spanCsum b).toNat + spanSum b) % 256 = 0 := by
  have hsum := sum_complement (b := b) (List.range' 2 16)
  rw [List.length_range'] at hsum
  rw [spanCsum_toNat, spanSum, Nat.mod_add_mod, hsum]

/-- The checksum is 1 exactly when the span sums to 255 mod 256 (R68). -/
theorem spanCsum_eq_one_iff (b : Nat → Byte) : spanCsum b = 0x01#8 ↔ spanSum b % 256 = 0xFF := by
  have hzero := spanCsum_add_spanSum b
  have hlt := (spanCsum b).isLt
  rw [← BitVec.toNat_inj, BitVec.toNat_ofNat]
  omega

/-- Two spans have one checksum exactly when their sums agree mod 256 (R69). -/
theorem spanCsum_eq_iff (b b' : Nat → Byte) :
    spanCsum b = spanCsum b' ↔ spanSum b % 256 = spanSum b' % 256 := by
  have hzero := spanCsum_add_spanSum b
  have hzero' := spanCsum_add_spanSum b'
  have hlt := (spanCsum b).isLt
  have hlt' := (spanCsum b').isLt
  rw [← BitVec.toNat_inj]
  omega

/-- Settles O19: the check compares the checksum with 1, which it is exactly when the span sums to 255 mod 256. -/
theorem checksumPassesWhenTheSpanSumsTo255 : Obligations.ChecksumPassesWhenTheSpanSumsTo255 :=
  fun _ b h => ⟨_, exec_csumAcc_of_span h,
    fun hsum => exec_csumCheck_of_eq ((spanCsum_eq_one_iff b).2 hsum),
    fun hsum => ⟨_, exec_csumCheck_of_ne (mt (spanCsum_eq_one_iff b).1 hsum), rfl⟩⟩

/-! ### What the span's sum sees and what it does not -/

/-- One byte of the span that differs, all others equal, changes the sum mod 256: two bytes differ by less than 256. -/
theorem spanSum_ne_of_one_byte {b b' : Nat → Byte} {i : Nat} (hi : i ∈ List.range' 2 16) (hne : b' i ≠ b i)
    (hother : ∀ n, n ≠ i → b' n = b n) : spanSum b % 256 ≠ spanSum b' % 256 := by
  have hsplit := List.sum_map_erase (fun n => (b n).toNat) hi
  have hsplit' := List.sum_map_erase (fun n => (b' n).toNat) hi
  have hrest : ((List.range' 2 16).erase i).map (fun n => (b' n).toNat) =
      ((List.range' 2 16).erase i).map fun n => (b n).toNat :=
    List.map_congr_left fun n hn => by
      rw [hother n ((List.nodup_range' (s := 2) (n := 16)).mem_erase_iff.1 hn).1]
  have hbyte := mt BitVec.eq_of_toNat_eq hne
  have hlt := (b i).isLt
  have hlt' := (b' i).isLt
  rw [hrest] at hsplit'
  unfold spanSum
  omega

/-- A byte with one bit flipped is another byte. -/
theorem xor_bit_ne (v : Byte) {j : Nat} (hj : j < 8) : v ^^^ (1#8 <<< j) ≠ v := fun h => by
  have hbit := congrArg (BitVec.getLsbD · j) h
  simp [hj] at hbit

/-- Settles O20: the flipped bit changes one byte of the span, and so its sum and its checksum. -/
theorem checksumDetectsASingleFlip : Obligations.ChecksumDetectsASingleFlip := by
  intro s s' b b' i j hle hge hj hread hread' hflip hother
  have hi : i ∈ List.range' 2 16 := List.mem_range'_1.2 ⟨hle, by omega⟩
  have hne : b' i ≠ b i := hflip ▸ xor_bit_ne (b i) hj
  exact ⟨_, _, exec_csumAcc_of_span hread, exec_csumAcc_of_span hread',
    mt (spanCsum_eq_iff b b').1 (spanSum_ne_of_one_byte hi hne hother)⟩

/-- The sum of the span does not depend on the order of its bytes. -/
theorem spanSum_eq_of_perm {b b' : Nat → Byte}
    (h : ((List.range' 2 16).map b).Perm ((List.range' 2 16).map b')) : spanSum b = spanSum b' := by
  have hsum := (h.map BitVec.toNat).sum_eq
  rwa [List.map_map, List.map_map] at hsum

/-- Settles O21: the checksum is a function of the sum of the span, which every order of the bytes shares. -/
theorem checksumIgnoresTheOrderOfTheSpan : Obligations.ChecksumIgnoresTheOrderOfTheSpan :=
  fun _ _ b b' hread hread' hperm => ⟨_, _, exec_csumAcc_of_span hread, exec_csumAcc_of_span hread',
    (spanCsum_eq_iff b b').2 (congrArg (· % 256) (spanSum_eq_of_perm hperm))⟩

end Sys2Proof.Machine
end

section
/-! PROOFS. The field decoder's operations, each run by itself over readable bytes, and the bytes that their values
depend on. -/

namespace Sys2Proof.Machine

/-! ### Digits -/

/-- The inverted form of a nibble is its complement (R71). -/
theorem inv4_eq_not (n : Nibble) : inv4 n = (~~~n).toNat := (BitVec.toNat_not (x := n)).symm

/-- The inverted form of a byte is its complement (R71). -/
theorem inv8_eq_not (b : Byte) : inv8 b = (~~~b).toNat := (BitVec.toNat_not (x := b)).symm

/-- Settles O22: the forms are subtractions by definition, and a complement subtracts from the greatest value. -/
theorem invertedFormsAreComplements : Obligations.InvertedFormsAreComplements :=
  ⟨fun n => ⟨rfl, inv4_eq_not n⟩, fun b => ⟨rfl, inv8_eq_not b⟩⟩

theorem inv4_hi (b : Byte) : inv4 (hi b) = 0x0F - b.toNat / 16 := congrArg (0x0F - ·) (hi_toNat b)
theorem inv4_lo (b : Byte) : inv4 (lo b) = 0x0F - b.toNat % 16 := congrArg (0x0F - ·) (lo_toNat b)
theorem digit_hi (b : Byte) : digit (hi b) = b.toNat / 16 := hi_toNat b
theorem digit_lo (b : Byte) : digit (lo b) = b.toNat % 16 := lo_toNat b

/-- A value of at most `m`, which a register of `w` bits can hold, reads back as it was written (R12). -/
theorem toNat_ofNat_of_le {w n m : Nat} (hle : n ≤ m) (hm : m < 2 ^ w) : (BitVec.ofNat w n).toNat = n := by
  rw [BitVec.toNat_ofNat, Nat.mod_eq_of_lt (Nat.lt_of_le_of_lt hle hm)]

/-- A value of an inverted byte of tens and an inverted digit of units is at most 2565 (R74, R75). -/
theorem invertedRaw_le (b : Byte) (n : Nibble) : inv8 b * 10 + inv4 n ≤ 2565 := by
  simp only [inv8, inv4]
  omega

/-- Such a value fits 12 bits (R12). -/
theorem toNat_invertedRaw (b : Byte) (n : Nibble) :
    (BitVec.ofNat 12 (inv8 b * 10 + inv4 n)).toNat = inv8 b * 10 + inv4 n :=
  toNat_ofNat_of_le (invertedRaw_le b n) (by decide)

/-- Three straight digits of hundreds, tens and units are at most 1665: a digit goes up to 15 (R51, R72). -/
theorem threeDigits_le (n m l : Nibble) : digit n * 100 + digit m * 10 + digit l ≤ 1665 := by
  simp only [digit]
  omega

/-- Three straight digits fit 11 bits (R12). -/
theorem toNat_threeDigits (n m l : Nibble) :
    (BitVec.ofNat 11 (digit n * 100 + digit m * 10 + digit l)).toNat = digit n * 100 + digit m * 10 + digit l :=
  toNat_ofNat_of_le (threeDigits_le n m l) (by decide)

/-! ### The selector -/

/-- Settles O23: VARSEL over a readable `PB[12]`. -/
theorem varselTestsTheSentinel : Obligations.VarselTestsTheSentinel :=
  fun _ _ => exec_varsel_of_read

/-! ### The fields of both variants -/

/-- GUST_DEC over readable bytes writes `GUST_RAW` (R74). -/
theorem exec_gustDec_of_read {s : State} {b7 b8 : Byte} (h7 : s.txn.memRead 7 = .ok b7)
    (h8 : s.txn.memRead 8 = .ok b8) :
    exec .gustDec s = .next (s.setTxn { s.txn with gustRaw := BitVec.ofNat 12 (inv8 b7 * 10 + inv4 (hi b8)) }) := by
  show (gustDec s).settle = _
  rw [gustDec, readPb_ok h7, readPb_ok h8, settle_pass]

/-- SPEED_DEC over readable bytes writes `SPEED_RAW` (R75). -/
theorem exec_speedDec_of_read {s : State} {b8 b9 : Byte} (h8 : s.txn.memRead 8 = .ok b8)
    (h9 : s.txn.memRead 9 = .ok b9) :
    exec .speedDec s = .next (s.setTxn { s.txn with speedRaw := BitVec.ofNat 12 (inv8 b9 * 10 + inv4 (lo b8)) }) := by
  show (speedDec s).settle = _
  rw [speedDec, readPb_ok h9, readPb_ok h8, settle_pass]

/-- WDIR_DEC over readable bytes writes `WDIR_RAW` (R76). -/
theorem exec_wdirDec_of_read {s : State} {b10 b11 : Byte} (h10 : s.txn.memRead 10 = .ok b10)
    (h11 : s.txn.memRead 11 = .ok b11) :
    exec .wdirDec s = .next (s.setTxn { s.txn with
      wdirRaw := BitVec.ofNat 11 (digit (hi b10) * 100 + digit (lo b10) * 10 + digit (hi b11)) }) := by
  show (wdirDec s).settle = _
  rw [wdirDec, readPb_ok h10, readPb_ok h11, settle_pass]

/-- Settles O24: the formula's value is at most 2565, which 12 bits hold. -/
theorem gustDecValue : Obligations.GustDecValue := by
  intro s b7 b8 h7 h8
  have hval := toNat_invertedRaw b7 (hi b8)
  exact ⟨_, exec_gustDec_of_read h7 h8, rfl, hval.trans (by rw [inv8, inv4_hi]), hval.trans_le (invertedRaw_le ..)⟩

/-- Settles O25: the formula's value is at most 2565, which 12 bits hold. -/
theorem speedDecValue : Obligations.SpeedDecValue := by
  intro s b8 b9 h8 h9
  have hval := toNat_invertedRaw b9 (lo b8)
  exact ⟨_, exec_speedDec_of_read h8 h9, rfl, hval.trans (by rw [inv8, inv4_lo]), hval.trans_le (invertedRaw_le ..)⟩

/-- Settles O26: three straight digits, which 11 bits hold. -/
theorem wdirDecValue : Obligations.WdirDecValue := by
  intro s b10 b11 h10 h11
  have hval := toNat_threeDigits (hi b10) (lo b10) (hi b11)
  exact ⟨_, exec_wdirDec_of_read h10 h11, rfl, hval.trans (by rw [digit_hi, digit_lo, digit_hi]),
    hval.trans_le (threeDigits_le ..)⟩

/-- Settles O31: WIND_SCALE in any state. -/
theorem windScaleMultipliesBy36 : Obligations.WindScaleMultipliesBy36 := by
  intro s
  obtain ⟨g, v, hg, hv, e⟩ := windScale_spec s
  exact ⟨_, congrArg Stage.settle e, rfl, hg, hv⟩

/-! ### The field of RAIN_ONLY -/

/-- RAIN_DEC in RAIN_ONLY, over readable bytes, writes `RAIN_RAW` (R77). -/
theorem exec_rainDec_of_rainOnly {s : State} {b13 b14 : Byte} (hsel : s.txn.sel = variantRainOnly)
    (h13 : s.txn.memRead 13 = .ok b13) (h14 : s.txn.memRead 14 = .ok b14) :
    exec .rainDec s = .next (s.setTxn { s.txn with
      rainRaw := BitVec.ofNat 16
        (inv4 (hi b13) * 1000 + inv4 (lo b13) * 100 + inv4 (hi b14) * 10 + inv4 (lo b14)) }) := by
  show (rainDec s).settle = _
  rw [rainDec, if_pos hsel, readPb_ok h13, readPb_ok h14, settle_pass]

/-- RAIN_DEC in FULL changes nothing (R77). -/
theorem exec_rainDec_of_full {s : State} (hsel : s.txn.sel = variantFull) : exec .rainDec s = .next s := by
  show (rainDec s).settle = _
  rw [rainDec, if_neg (by rw [hsel]; decide), settle_pass]

/-- Settles O27: four inverted digits are at most 16665, which 16 bits hold. -/
theorem rainDecValue : Obligations.RainDecValue := by
  refine ⟨fun s b13 b14 hsel h13 h14 => ?_, fun _ => exec_rainDec_of_full⟩
  have hle : inv4 (hi b13) * 1000 + inv4 (lo b13) * 100 + inv4 (hi b14) * 10 + inv4 (lo b14) ≤ 16665 := by
    simp only [inv4]
    omega
  have hval := toNat_ofNat_of_le (w := 16) hle (by decide)
  exact ⟨_, exec_rainDec_of_rainOnly hsel h13 h14, rfl,
    hval.trans (by rw [inv4_hi, inv4_lo, inv4_hi, inv4_lo]), hval.trans_le hle⟩

/-! ### The fields of FULL -/

/-- TEMP_DEC in FULL, over readable bytes, writes `TEMP_RAW` (R78). -/
theorem exec_tempDec_of_full {s : State} {b12 b13 : Byte} (hsel : s.txn.sel = variantFull)
    (h12 : s.txn.memRead 12 = .ok b12) (h13 : s.txn.memRead 13 = .ok b13) :
    exec .tempDec s = .next (s.setTxn { s.txn with
      tempRaw := BitVec.ofNat 11 (digit (hi b12) * 100 + digit (lo b12) * 10 + digit (hi b13)) }) := by
  show (tempDec s).settle = _
  rw [tempDec, if_pos hsel, readPb_ok h12, readPb_ok h13, settle_pass]

/-- TEMP_DEC in RAIN_ONLY changes nothing (R78). -/
theorem exec_tempDec_of_rainOnly {s : State} (hsel : s.txn.sel = variantRainOnly) : exec .tempDec s = .next s := by
  show (tempDec s).settle = _
  rw [tempDec, if_neg (by rw [hsel]; decide), settle_pass]

/-- Settles O28: three straight digits, of which the first two are not both 15 where `PB[12]` is not the sentinel. -/
theorem tempDecValue : Obligations.TempDecValue := by
  refine ⟨fun s b12 b13 hsel h12 h13 => ?_, fun _ => exec_tempDec_of_rainOnly⟩
  have hval := (toNat_threeDigits (hi b12) (lo b12) (hi b13)).trans (by rw [digit_hi, digit_lo, digit_hi])
  refine ⟨_, exec_tempDec_of_full hsel h12 h13, rfl, hval, fun hne => hval.trans_le ?_⟩
  have hne' : b12.toNat ≠ 0xFF := mt (BitVec.eq_of_toNat_eq (y := 0xFF#8)) hne
  omega

/-- TEMP_SIGN in FULL writes `TEMP_CORR` (R79). -/
theorem exec_tempSign_of_full {s : State} (hsel : s.txn.sel = variantFull) :
    exec .tempSign s = .next (s.setTxn { s.txn with
      tempCorr := BitVec.ofInt 12 (correctedTemp s.txn.tempRaw.toNat) }) := by
  show (tempSign s).settle = _
  rw [tempSign, if_pos hsel, settle_pass]

/-- TEMP_SIGN in RAIN_ONLY changes nothing (R79). -/
theorem exec_tempSign_of_rainOnly {s : State} (hsel : s.txn.sel = variantRainOnly) : exec .tempSign s = .next s := by
  show (tempSign s).settle = _
  rw [tempSign, if_neg (by rw [hsel]; decide), settle_pass]

/-- The correction of any raw value that `TEMP_RAW` can hold, beyond the decoder's range too, reads back from the 12
bits of `TEMP_CORR` (R79): it is -399 or more and at most 1047. -/
theorem toInt_correctedTemp (raw : BitVec 11) :
    (BitVec.ofInt 12 (correctedTemp raw.toNat)).toInt = correctedTemp raw.toNat := by
  have hraw := raw.isLt
  have hrange : -399 ≤ correctedTemp raw.toNat ∧ correctedTemp raw.toNat ≤ 1047 := by
    unfold correctedTemp tempThresh tempOffset
    split <;> omega
  exact BitVec.toInt_ofInt_eq_self (by decide) (by omega) (by omega)

/-- Settles O29: the corrected value fits the register, in the range of R21 for every raw value up to 1655. -/
theorem tempSignValue : Obligations.TempSignValue :=
  ⟨fun s hsel => ⟨_, exec_tempSign_of_full hsel, rfl, toInt_correctedTemp s.txn.tempRaw, correctedTemp_range⟩,
    fun _ => exec_tempSign_of_rainOnly⟩

/-- HUM_DEC in FULL, over a readable byte, writes `HUM_RAW` (R80). -/
theorem exec_humDec_of_full {s : State} {b14 : Byte} (hsel : s.txn.sel = variantFull)
    (h14 : s.txn.memRead 14 = .ok b14) :
    exec .humDec s = .next (s.setTxn { s.txn with
      humRaw := BitVec.ofNat 8 (digit (lo b14) + digit (hi b14) * 10) }) := by
  show (humDec s).settle = _
  rw [humDec, if_pos hsel, readPb_ok h14, settle_pass]

/-- HUM_DEC in RAIN_ONLY changes nothing (R80). -/
theorem exec_humDec_of_rainOnly {s : State} (hsel : s.txn.sel = variantRainOnly) : exec .humDec s = .next s := by
  show (humDec s).settle = _
  rw [humDec, if_neg (by rw [hsel]; decide), settle_pass]

/-- Settles O30: two straight digits are at most 165, which 8 bits hold. -/
theorem humDecValue : Obligations.HumDecValue := by
  refine ⟨fun s b14 hsel h14 => ?_, fun _ => exec_humDec_of_rainOnly⟩
  have hle : digit (lo b14) + digit (hi b14) * 10 ≤ 165 := by
    simp only [digit]
    omega
  have hval := toNat_ofNat_of_le (w := 8) hle (by decide)
  exact ⟨_, exec_humDec_of_full hsel h14, rfl, hval.trans (by rw [digit_lo, digit_hi]), hval.trans_le hle⟩

/-! ### The field decoder as a function of bytes 7 to 14 -/

/-- Settles O32: each value that the field decoder leaves is the same formula of the bytes in both states, and the
variant's fields are compared where `SEL`, which `PB[12]` fixes, says that they were written. -/
theorem fieldDecoderReadsOnlyBytes7To14 : Obligations.FieldDecoderReadsOnlyBytes7To14 := by
  intro s s' b hread hread'
  obtain ⟨u, e, hpb, hpbSpec, hsel, hgust, hspeed, hdir, hrain, hfull⟩ := fieldDecoder_spec hread
  obtain ⟨u', e', -, -, hsel', hgust', hspeed', hdir', hrain', hfull'⟩ := fieldDecoder_spec hread'
  refine ⟨_, _, e, e', rfl, rfl, rfl, hpb, hpbSpec, hsel.trans hsel'.symm,
    BitVec.eq_of_toNat_eq (hgust.trans hgust'.symm), BitVec.eq_of_toNat_eq (hspeed.trans hspeed'.symm),
    BitVec.eq_of_toNat_eq (hdir.trans hdir'.symm), fun hone => ?_, fun hzero => ?_⟩
  · have h12 : b 12 = 0xFF#8 := by
      by_contra hne
      rw [setTxn_txn, hsel, if_neg hne] at hone
      exact absurd hone (by decide)
    exact BitVec.eq_of_toNat_eq ((hrain h12).trans (hrain' h12).symm)
  · have h12 : b 12 ≠ 0xFF#8 := fun heq => by
      rw [setTxn_txn, hsel, if_pos heq] at hzero
      exact absurd hzero (by decide)
    obtain ⟨htemp, hhum⟩ := hfull h12
    obtain ⟨htemp', hhum'⟩ := hfull' h12
    exact ⟨htemp.trans htemp'.symm, BitVec.eq_of_toNat_eq (hhum.trans hhum'.symm)⟩

end Sys2Proof.Machine
end

section
/-! PROOFS. The output multiplexer's two operations, each run by itself, and the outputs that a failed DECODE leaves. -/

namespace Sys2Proof.Machine

/-! ### What the multiplexer writes -/

/-- A record whose `PRESENT` leaves the hardwired bit 1 at 0 is written as it stands (R20, R84). -/
theorem setOut_of_wired {s : State} {o : Outputs} (h : writePresent o.present = o.present) :
    s.setOut o = { s with out := o } := by
  rw [State.setOut, h]

/-- The hardwired bit is 0 in each value of `PRESENT` that the multiplexer writes (R54, R84). -/
theorem writePresent_presentFull : writePresent presentFull = presentFull := by decide
theorem writePresent_presentRainOnly : writePresent presentRainOnly = presentRainOnly := by decide
theorem writePresent_zero : writePresent 0 = 0 := by decide

/-- MUX_OK over `SEL` = FULL writes the FULL record (R83). -/
theorem routeRecord_of_full {s : State} (hsel : s.txn.sel = variantFull) :
    s.routeRecord = { s with out := s.txn.recordFull s.out.status } := by
  rw [State.routeRecord, if_pos hsel, setOut_of_wired writePresent_presentFull]

/-- MUX_OK over `SEL` = RAIN_ONLY writes the RAIN_ONLY record (R83). -/
theorem routeRecord_of_rainOnly {s : State} (hsel : s.txn.sel = variantRainOnly) :
    s.routeRecord = { s with out := s.txn.recordRainOnly s.out.status } := by
  rw [State.routeRecord, if_neg (by rw [hsel]; decide), setOut_of_wired writePresent_presentRainOnly]

/-- MUX_FAIL writes the cleared record (R86). -/
theorem clearRecord_eq (s : State) : s.clearRecord = { s with out := { Outputs.reset with status := s.out.status } } :=
  setOut_of_wired writePresent_zero

/-- Settles O33: `SEL` chooses the record, and neither variant's `PRESENT` has the hardwired bit. -/
theorem muxOkWritesTheRecord : Obligations.MuxOkWritesTheRecord :=
  fun _ => ⟨fun hsel => congrArg Host.Outcome.next (routeRecord_of_full hsel),
    fun hsel => congrArg Host.Outcome.next (routeRecord_of_rainOnly hsel)⟩

/-- Settles O34: the cleared record is reset's under the `STATUS` that stands. -/
theorem muxFailClearsTheRecord : Obligations.MuxFailClearsTheRecord :=
  fun s => congrArg Host.Outcome.next (clearRecord_eq s)

/-! ### The outputs of a failed DECODE -/

/-- Good outputs of any status but success are those of reset but for `STATUS` (R86, R105). -/
theorem eq_reset_of_good {o : Outputs} (hgood : o.Good) (hne : o.status ≠ 1) :
    o = { Outputs.reset with status := o.status } := by
  cases o
  rcases hgood with ⟨hok, -⟩ | ⟨-, -, rfl, rfl, rfl, rfl, rfl, rfl, rfl, rfl⟩
  · exact absurd hok hne
  · rfl

/-- Settles O37: DECODE leaves good outputs, and good outputs without success are cleared. -/
theorem failedDecodeLeavesOnlyItsCode : Obligations.FailedDecodeLeavesOnlyItsCode :=
  fun _ _ h hne => eq_reset_of_good (execDecode_inv h).1 hne

end Sys2Proof.Machine
end

section
/-! PROOFS. The two host commands: NOP changes nothing; DECODE always ends, leaves the outputs of its frame, and is its
micro-operations in their order with one commit. -/

namespace Sys2Proof.Machine

/-! ### NOP, and what a DECODE leaves -/

/-- Settles O8: a step whose strobe is 0 runs NOP, and the ports' move is no part of the outputs and the datapath. -/
theorem nopLeavesTheBlockUnchanged : Obligations.NopLeavesTheBlockUnchanged := by
  refine ⟨exec_nop, fun s f hres => ?_⟩
  have hres' : ({ s with ports := ⟨0#1, 0#1, f⟩ } : State).reserved = none := (reserved_congr rfl).trans hres
  have hstep := step_of_not_rst hres' rfl
  rw [decodeStrobe_zero, exec_nop, advance_next] at hstep
  exact ⟨_, hstep, advancePorts_out _, advancePorts_txn _⟩

/-- Settles O35: each of the five ways in which a transaction ends has a code of its own. -/
theorem decodeAlwaysEndsWithAResult : Obligations.DecodeAlwaysEndsWithAResult := by
  intro s
  obtain ⟨u, o, -, e, ho⟩ := execDecode_spec s
  suffices 1 ≤ o.status.toNat ∧ o.status.toNat ≤ 5 from ⟨_, e, this.1, this.2, rfl, rfl⟩
  rcases ho with ⟨-, rfl⟩ | ⟨-, -, rfl⟩ | ⟨k, -, -, -, -, rfl⟩ | ⟨k, -, -, rfl⟩ | ⟨k, -, -, hd, rfl⟩
  · decide
  · decide
  · decide
  · decide
  · rw [decoded_record hd, recordAt_status]
    decide

/-- Settles O40: either DECODE leaves the outputs that the frame determines. -/
theorem decodeDependsOnTheFrameOnly : Obligations.DecodeDependsOnTheFrameOnly := by
  intro s s' hframe
  obtain ⟨t, e, hout⟩ := exec_decode_out s
  obtain ⟨t', e', hout'⟩ := exec_decode_out s'
  exact ⟨t, t', e, e', by rw [hout, hout', hframe]⟩

/-! ### Runs of operations -/

/-- A run goes on after an operation that is a stage by itself, if the stage passes (log 11). -/
theorem runEach_cons_of_pass {i : Instr} {f : State → Stage} {s t : State} (hexec : exec i s = (f s).settle)
    (h : f s = .pass t) (is : List Instr) : runEach (i :: is) s = runEach is t := by
  rw [runEach, hexec, h, settle_pass]

/-- A run of two lists of operations is the run of the second from where the first ends. -/
theorem runEach_append {is : List Instr} {s t : State} (h : runEach is s = .next t) (js : List Instr) :
    runEach (is ++ js) s = runEach js t := by
  induction is generalizing s with
  | nil =>
    cases h
    rfl
  | cons i is ih =>
    rw [runEach] at h
    rw [List.cons_append, runEach]
    cases hi : exec i s with
    | next u =>
      rw [hi] at h
      exact ih h
    | fault r =>
      rw [hi] at h
      cases h
    | refused r =>
      rw [hi] at h
      cases h

/-! ### The checks: a stage against the operations it consists of -/

/-- The stage `st` is what the operations `is`, each by itself, make of `s` (R90, R98, log 11). A pass is their run,
which leaves the outputs alone; a failure is taken by one of them, those before it having left the outputs alone. Of a
fault it says nothing: a transaction reaches none (`execDecode_spec`). -/
def Stage.Refines (st : Stage) (is : List Instr) (s : State) : Prop :=
  match st with
  | .pass t => runEach is s = .next t ∧ t.out = s.out
  | .fail c t => ∃ n i u, is[n]? = some i ∧ runEach (is.take n) s = .next u ∧ u.out = s.out ∧
      exec i u = .next (t.takeFailure c)
  | .fault _ => True

/-- One operation is its stage, if a pass of the stage leaves the outputs alone. -/
theorem refines_singleton {i : Instr} {f : State → Stage} {s : State} (hexec : exec i s = (f s).settle)
    (hout : ∀ t, f s = .pass t → t.out = s.out) : (f s).Refines [i] s := by
  cases h : f s with
  | pass t => exact ⟨runEach_cons_of_pass hexec h [], hout t h⟩
  | fail c t => exact ⟨0, i, s, rfl, rfl, rfl, by rw [hexec, h, settle_fail]⟩
  | fault r => trivial

/-- Two stages in turn are the operations of the first, then those of the second. -/
theorem Stage.Refines.andThen {st : Stage} {next : State → Stage} {is js : List Instr} {s : State}
    (h : st.Refines is s) (hnext : ∀ t, (next t).Refines js t) : (st.andThen next).Refines (is ++ js) s := by
  cases st with
  | pass t =>
    obtain ⟨hrun, hout⟩ := h
    rw [andThen_pass]
    have ht := hnext t
    cases hst : next t with
    | pass u =>
      rw [hst] at ht
      exact ⟨(runEach_append hrun js).trans ht.1, ht.2.trans hout⟩
    | fail c u =>
      rw [hst] at ht
      obtain ⟨n, i, v, hi, hv, hvout, hfail⟩ := ht
      refine ⟨is.length + n, i, v, ?_, ?_, hvout.trans hout, hfail⟩
      · rw [List.getElem?_append_right (Nat.le_add_right _ _), Nat.add_sub_cancel_left, hi]
      · rw [List.take_length_add_append, runEach_append hrun, hv]
    | fault r => trivial
  | fail c t =>
    obtain ⟨n, i, u, hi, hu, huout, hfail⟩ := h
    obtain ⟨hn, -⟩ := List.getElem?_eq_some_iff.1 hi
    refine ⟨n, i, u, ?_, ?_, huout, hfail⟩
    · rw [List.getElem?_append_left hn, hi]
    · rw [List.take_append_of_le_length (Nat.le_of_lt hn), hu]
  | fault r => trivial

/-- The operations of the front end and the checksum, which hold every check (R89, R96). -/
def checkOps : List Instr :=
  [.shapeCheck, .preambleSearch, .preOffset, .remainCheck, .extract, .csumAcc, .csumCheck]

/-- The operations of the variant that `SEL` = `b` means (R89). -/
def variantOps (b : Bit) : List Instr :=
  if b = 1#1 then [.rainDec] else [.tempDec, .tempSign, .humDec]

/-- The operations of the field decoder that leaves `SEL` = `b` (R89). -/
def fieldOps (b : Bit) : List Instr :=
  [.varsel, .gustDec, .speedDec, .wdirDec] ++ variantOps b ++ [.windScale]

/-- The order of R89 is the checks, the field decoder, and MUX_OK. -/
theorem microOps_eq_append (b : Bit) : microOps (b == 1#1) = checkOps ++ (fieldOps b ++ [.muxOk]) := by
  obtain rfl | rfl := b.eq_zero_or_eq_one
  · rfl
  · rfl

/-- A check that passes has changed nothing but what it wrote before. -/
theorem eq_of_check_eq_pass {p : Prop} [Decidable p] {c : FailCode} {u t : State}
    (h : (if p then Stage.fail c u else .pass u) = .pass t) : t = u := by
  split at h
  · cases h
  · cases h
    rfl

theorem shapeCheck_refines (s : State) : (shapeCheck s).Refines [.shapeCheck] s :=
  refines_singleton (exec_shapeCheck s) fun t h => by rw [eq_of_check_eq_pass h]

theorem preambleSearch_refines (s : State) : (preambleSearch s).Refines [.preambleSearch] s :=
  refines_singleton (exec_preambleSearch s) fun t h => by
    unfold preambleSearch at h
    split at h
    · cases h
      rfl
    · cases h

theorem preOffset_refines (s : State) : (preOffset s).Refines [.preOffset] s :=
  refines_singleton (exec_preOffset s) fun t h => by rw [eq_of_check_eq_pass h, setTxn_out]

theorem remainCheck_refines (s : State) : (remainCheck s).Refines [.remainCheck] s :=
  refines_singleton (exec_remainCheck s) fun t h => by rw [eq_of_check_eq_pass h, setTxn_out]

theorem extract_refines (s : State) : (extract s).Refines [.extract] s :=
  refines_singleton (exec_extract s) fun t h => by
    unfold extract at h
    split at h
    · cases h
    · cases h
      rfl

theorem csumAcc_refines (s : State) : (csumAcc s).Refines [.csumAcc] s :=
  refines_singleton (exec_csumAcc s) fun t h => by
    unfold csumAcc at h
    split at h
    · cases h
      rfl
    · cases h

theorem csumCheck_refines (s : State) : (csumCheck s).Refines [.csumCheck] s :=
  refines_singleton (exec_csumCheck s) fun t h => by rw [eq_of_check_eq_pass h]

/-- The front end and the checksum are their operations in the order of R89. -/
theorem checks_refines (s : State) : ((frontEnd s).andThen checksum).Refines checkOps s :=
  (((((shapeCheck_refines s).andThen preambleSearch_refines).andThen preOffset_refines).andThen
    remainCheck_refines).andThen extract_refines).andThen
    fun t => (csumAcc_refines t).andThen csumCheck_refines

/-! ### The field decoder: it cannot fail -/

/-- The stage raises no failure, and `P` holds of the state that it passes on. -/
def Stage.PassesWith (st : Stage) (P : State → Prop) : Prop :=
  match st with
  | .pass t => P t
  | .fail _ _ => False
  | .fault _ => True

/-- Reading a byte raises no failure, and nothing is passed on but by what follows. -/
theorem passesWith_readPb {s : State} {i : Nat} {k : Byte → Stage} {P : State → Prop}
    (h : ∀ v, (k v).PassesWith P) : (s.readPb i k).PassesWith P := by
  unfold State.readPb
  split
  · exact h _
  · trivial

/-- The stage raises no failure; a pass is the run of the operations `is` from `s`, and leaves `SEL` at `b`. -/
def Stage.RunsTo (st : Stage) (is : List Instr) (s : State) (b : Bit) : Prop :=
  st.PassesWith fun t => runEach is s = .next t ∧ t.txn.sel = b

/-- One operation is the run of its stage. -/
theorem runsTo_singleton {i : Instr} {f : State → Stage} {s : State} {b : Bit} (hexec : exec i s = (f s).settle)
    (h : (f s).PassesWith (·.txn.sel = b)) : (f s).RunsTo [i] s b := by
  cases hst : f s with
  | pass t =>
    rw [hst] at h
    exact ⟨runEach_cons_of_pass hexec hst [], h⟩
  | fail c t =>
    rw [hst] at h
    exact h
  | fault r => trivial

/-- Two stages in turn are the run of the first's operations, then of the second's. -/
theorem Stage.RunsTo.andThen {st : Stage} {next : State → Stage} {is js : List Instr} {s : State} {b : Bit}
    (h : st.RunsTo is s b) (hnext : ∀ t, t.txn.sel = b → (next t).RunsTo js t b) :
    (st.andThen next).RunsTo (is ++ js) s b := by
  cases st with
  | pass t =>
    obtain ⟨hrun, hsel⟩ := h
    rw [andThen_pass, Stage.RunsTo, runEach_append hrun]
    exact hnext t hsel
  | fail c t => exact h
  | fault r => trivial

/-- VARSEL sets `SEL` to a value that the payload chooses (R73). -/
theorem varsel_runs (s : State) : ∃ b, (varsel s).RunsTo [.varsel] s b := by
  suffices ∃ b, (varsel s).PassesWith (·.txn.sel = b) from this.imp fun _ => runsTo_singleton rfl
  unfold varsel State.readPb
  split
  · exact ⟨_, rfl⟩
  · exact ⟨0, trivial⟩

section
variable {s : State} {b : Bit} (h : s.txn.sel = b)
include h

theorem gustDec_runs : (gustDec s).RunsTo [.gustDec] s b :=
  runsTo_singleton rfl (passesWith_readPb fun _ => passesWith_readPb fun _ => h)

theorem speedDec_runs : (speedDec s).RunsTo [.speedDec] s b :=
  runsTo_singleton rfl (passesWith_readPb fun _ => passesWith_readPb fun _ => h)

theorem wdirDec_runs : (wdirDec s).RunsTo [.wdirDec] s b :=
  runsTo_singleton rfl (passesWith_readPb fun _ => passesWith_readPb fun _ => h)

theorem rainDec_runs : (rainDec s).RunsTo [.rainDec] s b :=
  runsTo_singleton rfl (by
    unfold rainDec
    split
    · exact passesWith_readPb fun _ => passesWith_readPb fun _ => h
    · exact h)

theorem tempDec_runs : (tempDec s).RunsTo [.tempDec] s b :=
  runsTo_singleton rfl (by
    unfold tempDec
    split
    · exact passesWith_readPb fun _ => passesWith_readPb fun _ => h
    · exact h)

theorem tempSign_runs : (tempSign s).RunsTo [.tempSign] s b :=
  runsTo_singleton rfl (by
    unfold tempSign
    split
    · exact h
    · exact h)

theorem humDec_runs : (humDec s).RunsTo [.humDec] s b :=
  runsTo_singleton rfl (by
    unfold humDec
    split
    · exact passesWith_readPb fun _ => h
    · exact h)

theorem windScale_runs : (windScale s).RunsTo [.windScale] s b := by
  obtain ⟨g, v, -, -, e⟩ := windScale_spec s
  refine runsTo_singleton rfl ?_
  rw [e]
  exact h

theorem variantFields_runs : (variantFields s).RunsTo (variantOps b) s b := by
  rw [variantFields, h]
  obtain rfl | rfl := b.eq_zero_or_eq_one
  · exact ((tempDec_runs h).andThen fun _ => tempSign_runs).andThen fun _ => humDec_runs
  · exact rainDec_runs h

end

/-- The field decoder is the run of its operations in the order of R89, for the variant that it leaves in `SEL`. -/
theorem fieldDecoder_runs (s : State) : ∃ b, (fieldDecoder s).RunsTo (fieldOps b) s b := by
  obtain ⟨b, h⟩ := varsel_runs s
  exact ⟨b, ((((h.andThen fun _ => gustDec_runs).andThen fun _ => speedDec_runs).andThen fun _ =>
    wdirDec_runs).andThen fun _ => variantFields_runs).andThen fun _ => windScale_runs⟩

/-! ### The transaction and its commit -/

/-- A transaction fails in its checks: the field decoder raises no failure (R89, R96). -/
theorem checks_eq_fail_of_transaction {s t : State} {c : FailCode} (h : transaction s = .fail c t) :
    (frontEnd s.beginTxn).andThen checksum = .fail c t := by
  rw [transaction] at h
  cases hst : (frontEnd s.beginTxn).andThen checksum with
  | pass u =>
    obtain ⟨b, hrun⟩ := fieldDecoder_runs u
    rw [hst, andThen_pass] at h
    rw [h] at hrun
    exact hrun.elim
  | fail c' u =>
    rw [hst] at h
    exact h
  | fault r =>
    rw [hst] at h
    cases h

/-- A failed transaction is a run of the operations up to the one that takes the failure (R90, R98). -/
theorem transaction_fail_refines {s t : State} {c : FailCode} (h : transaction s = .fail c t) :
    ∃ n i u, n < 7 ∧ (microOps true)[n]? = some i ∧ runEach ((microOps true).take n) s.beginTxn = .next u ∧
      u.out = s.out ∧ exec i u = .next (t.takeFailure c) := by
  have href := checks_refines s.beginTxn
  rw [checks_eq_fail_of_transaction h] at href
  obtain ⟨n, i, u, hi, hrun, hout, hfail⟩ := href
  obtain ⟨hn, -⟩ := List.getElem?_eq_some_iff.1 hi
  have hops : microOps true = checkOps ++ (fieldOps 1#1 ++ [.muxOk]) := microOps_eq_append 1#1
  refine ⟨n, i, u, hn, ?_, ?_, hout, hfail⟩
  · rw [hops, List.getElem?_append_left hn, hi]
  · rw [hops, List.take_append_of_le_length (Nat.le_of_lt hn), hrun]

/-- A transaction that passes is the run of the operations of its variant, but for MUX_OK (R89). -/
theorem runEach_of_transaction {s t : State} (h : transaction s = .pass t) :
    runEach (microOps (t.txn.sel == 1#1)) s.beginTxn = .next t.routeRecord := by
  obtain ⟨u, hchecks, hfields⟩ := andThen_eq_pass h
  have href := checks_refines s.beginTxn
  rw [hchecks] at href
  obtain ⟨b, hrun⟩ := fieldDecoder_runs u
  rw [hfields] at hrun
  obtain ⟨hrun, rfl⟩ := hrun
  rw [microOps_eq_append, runEach_append href.1, runEach_append hrun]
  rfl

/-- Writing `PRESENT` again with what it holds changes nothing (R20). -/
theorem writePresent_writePresent (v : BitVec 9) : writePresent (writePresent v) = writePresent v := by
  simp only [writePresent, BitVec.and_assoc, BitVec.and_self]

/-- The commit of a success is MUX_OK's record with `STATUS` 1 beside it (R41, R89). -/
theorem commitOk_eq_routeRecord (s : State) :
    s.commitOk = { s.routeRecord with out := { s.routeRecord.out with status := 1 } } := by
  refine setOut_of_wired ?_
  rw [State.routeRecord, setOut_present, writePresent_writePresent]

/-- The commit of a success leaves the variant that `SEL` holds (R83). -/
theorem commitOk_variant (s : State) : s.commitOk.out.variant = s.txn.sel := by
  rw [commitOk_eq]
  obtain h | h := s.txn.sel.eq_zero_or_eq_one
  · rw [h]
    rfl
  · rw [h]
    rfl

theorem FailCode.status_ne_one (c : FailCode) : c.status ≠ 1 := by
  cases c <;> decide

/-- Settles O41: a transaction that passes is the run of all its operations, and one that fails is the run up to the
check that fails; the commit writes what MUX_OK, or the failing operation, writes. -/
theorem decodeIsItsMicroOperationsInOrder : Obligations.DecodeIsItsMicroOperationsInOrder := by
  intro s
  obtain ⟨t, e, -⟩ := exec_decode_out s
  refine ⟨t, e, ?_⟩
  rw [exec_decode, execDecode] at e
  cases hst : transaction s with
  | pass w =>
    obtain rfl : w.commitOk = t := Host.Outcome.next.inj (by rw [← e, hst]; rfl)
    refine ⟨fun _ => ⟨w.routeRecord, ?_, commitOk_eq_routeRecord w⟩, fun hne => absurd rfl hne⟩
    rw [commitOk_variant, runEach_of_transaction hst]
  | fail c w =>
    obtain rfl : w.takeFailure c = t := Host.Outcome.next.inj (by rw [← e, hst]; rfl)
    exact ⟨fun hok => absurd hok c.status_ne_one, fun _ => transaction_fail_refines hst⟩
  | fault r =>
    rw [hst] at e
    cases e

end Sys2Proof.Machine
end

section
/-! PROOFS. That a state which meets the invariant always steps, and that instances step apart from each other. -/

namespace Sys2Proof.Machine

/-! ### A step from a state that meets the invariant -/

/-- Registers that a success, a failure or reset can leave hold a defined `STATUS` (R52). -/
theorem statusDefined_of_good {o : Outputs} (h : o.Good) : statusDefined o.status = true := by
  obtain ⟨hok, -⟩ | ⟨hle, -, -⟩ := h
  · rw [hok]
    rfl
  · exact decide_eq_true hle

/-- Such registers hold a defined `PRESENT`: the map of FULL, that of RAIN_ONLY, or 0 (R54, R86). -/
theorem presentDefined_of_good {o : Outputs} (h : o.Good) : presentDefined o.present = true := by
  obtain ⟨-, ⟨-, hfull, -⟩ | ⟨-, hrain, -⟩⟩ | ⟨-, -, -, hzero, -⟩ := h
  · rw [hfull]
    rfl
  · rw [hrain]
    rfl
  · rw [hzero]
    rfl

/-- A state that meets the invariant holds no reserved code (R56). -/
theorem reserved_of_inv {s : State} (h : s.Inv) : s.reserved = none :=
  (if_pos (statusDefined_of_good h.1)).trans (if_pos (presentDefined_of_good h.1))

/-- Settles O46: only a reserved code stops a step, and the invariant leaves none. -/
theorem invariantStatesAlwaysStep : Obligations.InvariantStatesAlwaysStep := by
  intro s hs
  obtain ⟨x, e⟩ := step_eq (reserved_of_inv hs)
  exact ⟨_, e⟩

/-! ### Several instances -/

/-- A step of instance `i` gives a next vector just when that instance steps: its new state takes the place of the
old one (R103). -/
theorem stepInstance_eq_next_iff {n : Nat} {v w : Vector State n} {i : Fin n} :
    stepInstance v i = .next w ↔ ∃ t, step v[i] = .next t ∧ w = v.set i t := by
  unfold stepInstance
  cases step v[i] with
  | next t => simp [eq_comm]
  | fault r => simp
  | refused r => simp

/-- The other instances stay as they are (R103). -/
theorem getElem_of_stepInstance {n : Nat} {v w : Vector State n} {i j : Fin n} (h : stepInstance v i = .next w)
    (hij : i ≠ j) : w[j] = v[j] := by
  obtain ⟨t, -, rfl⟩ := stepInstance_eq_next_iff.1 h
  exact Vector.getElem_set_ne i.isLt j.isLt (Fin.val_ne_of_ne hij)

/-- Settles O51: each instance steps from its own state, which the other's step leaves as it is, and new states at
two places may be set in either order. -/
theorem instancesAreIndependent : Obligations.InstancesAreIndependent := by
  intro n v w x i j hij hi hj
  have hwj := getElem_of_stepInstance hi hij
  obtain ⟨t, ht, rfl⟩ := stepInstance_eq_next_iff.1 hi
  obtain ⟨u, hu, rfl⟩ := stepInstance_eq_next_iff.1 hj
  rw [hwj] at hu
  have hj' : stepInstance v j = .next (v.set j u) := stepInstance_eq_next_iff.2 ⟨u, hu, rfl⟩
  have hvi := getElem_of_stepInstance hj' hij.symm
  refine ⟨hwj, _, hj', hvi, stepInstance_eq_next_iff.2 ⟨t, ?_, ?_⟩⟩
  · rw [hvi, ht]
  · exact Vector.set_comm t u (Fin.val_ne_of_ne hij)

end Sys2Proof.Machine
end

section
/-! PROOFS. Reset: the outputs that a step with `RST` asserted leaves, and the invariant at power-on (R105). -/

namespace Sys2Proof.Machine

/-- Settles O6: a step with `RST` asserted takes the reset, which writes every output register, and the move of the
ports writes none. -/
theorem resetStepClearsTheOutputs : Obligations.ResetStepClearsTheOutputs := by
  refine ⟨rfl, fun s hres hrst => ⟨s.takeReset.advancePorts, step_of_rst hres hrst, ?_⟩⟩
  rw [advancePorts_out, takeReset_out]
  rfl

/-- A reset taken in the state after reset changes nothing (R105, log 4). -/
theorem takeReset_reset : State.reset.takeReset = State.reset := rfl

/-- Settles O45: the state after reset is one that a reset leaves, and a reset establishes the invariant. -/
theorem resetMeetsTheInvariant : Obligations.ResetMeetsTheInvariant := by
  have h := takeReset_inv State.reset
  rwa [takeReset_reset] at h

end Sys2Proof.Machine
end
